-- ==== Sys2Proof/Word.lean ====
section
/-! DEFINITION. The bit-vector types of the block: a byte, a 32-bit operand or result, a command word
(`00_scope.md` section 6.1; `30_encoding.md` R69). -/

namespace Sys2Proof

/-- A channel value, or one byte of a byte space (`10_state.md` R11; `20_memory.md` R35). -/
abbrev Byte := BitVec 8

/-- A numeric operand `A`, `B`, `C` or the result `RES` (`30_encoding.md` R60, R61, R78). -/
abbrev Word := BitVec 32

/-- The command word `CW` (`30_encoding.md` R69). -/
abbrev CommandWord := BitVec 100

end Sys2Proof
end

