-- ==== Sys2Proof/Machine/State.lean ====
section
/-! DEFINITION. The state. The block's own state is RED, GREEN and BLUE and nothing else (`10_state.md` R10, R15 to R20).
The other fields are the caller's side of the transaction interface (`00_scope.md` R6, R8): the byte spaces it supplies
to the operation, the inputs it issues and the results it has been given. -/

namespace Sys2Proof.Machine

/-- The contents of a byte space (`20_memory.md` R30): (offset, byte) pairs, offsets strictly rising, no byte equal to
what an unlisted offset reads as (Memory.wf in Ops.lean). -/
abbrev Memory := List Host.Cell

/-- The three channel registers by their index, `x[0]`, `x[1]`, `x[2]` (`00_scope.md` section 6.2). -/
inductive Channel where
  | red
  | green
  | blue
deriving DecidableEq, Repr

/-- What the caller can do to the block between two operations. -/
inductive Input where
  /-- Issue a command word, with the bytes of ZP and OP as they are at the moment of issue
  (`30_encoding.md` R69, R73; `20_memory.md` R49). -/
  | command (word : CommandWord) (zp op : Memory)
  /-- Apply reset, which falls between operations (`70_reset_and_hazards.md` R190, R191; log entry 7). -/
  | reset
deriving DecidableEq, Repr

/-- What one operation returns to the caller (`30_encoding.md` R78; `00_scope.md` section 9). -/
inductive Result where
  /-- CREATE and SET operations return nothing (`92_eei_decisions.md` D24). -/
  | nothing
  /-- `RES`, of TO_PACKED and the GET operations. -/
  | word (res : Word)
  /-- `OUT` with its length, of ENCODE; length 0 is the empty sentinel (`60_exceptions.md` R162). -/
  | buffer (out : List Byte)
deriving DecidableEq, Repr

structure State where
  /-- RED, `x[0]` (`10_state.md` R10). -/
  red : Byte
  /-- GREEN, `x[1]`. -/
  green : Byte
  /-- BLUE, `x[2]`. -/
  blue : Byte
  /-- The byte space ZP, the caller's, as supplied with the operation last begun (`20_memory.md` R30, R31). -/
  zp : Memory
  /-- The byte space OP, the caller's, as supplied with the operation last begun (R30, R31). -/
  op : Memory
  /-- The caller's inputs not yet taken, the next one first (`70_reset_and_hazards.md` R204; log entry 1). -/
  inputs : List Input
  /-- The results the caller has been given, the first one first; they are the caller's alone and no operation reads
  them (`20_memory.md` R33; `70_reset_and_hazards.md` R204; log entry 3). -/
  returned : List Result
deriving DecidableEq, Repr

/-- The reasons a step faults: none. No operation of the block faults (`60_exceptions.md` R163, R177;
`00_scope.md` R7), so nobody raises one and the type is empty; safe. -/
inductive Fault where
deriving DecidableEq, Repr

/-- The reasons a step gives no meaning. -/
inductive Refusal where
  /-- Raised only by an arm of exec whose instruction has no meaning yet; safe. No arm is such an arm now. -/
  | notModelled (mnemonic : String)
  /-- Raised by step when the decoder meets a reserved opcode 0xB to 0xF (`30_encoding.md` R72): the spec's own
  refusal; safe. -/
  | reservedOpcode (op : BitVec 4)
deriving DecidableEq, Repr

/-- The machine right after reset: black (`10_state.md` R21, `70_reset_and_hazards.md` R190), nothing pending and no
outstanding result (R191). -/
def State.reset : State :=
  { red := 0x00#8, green := 0x00#8, blue := 0x00#8, zp := [], op := [], inputs := [], returned := [] }

end Sys2Proof.Machine
end

