-- ==== Sys2Proof/Machine/Ops.lean ====
section
/-! DEFINITION. The named operations over the byte spaces and the registers, the delivery of a result and the effect of
reset. The block takes no exception, so there is no exception entry or return (`60_exceptions.md` R163, R166, R167). -/

namespace Sys2Proof.Machine

/-- What an offset of a byte space that is not listed reads as: 0x00, so a listed byte is never 0x00.
DESIGN CHOICE (log entry 4), unsafe where a caller supplies fewer bytes than its descriptor says. -/
def Memory.unlisted : Byte := 0x00#8

/-- `MemRead(space, addr, 1)` (`00_scope.md` section 6.3). -/
def Memory.read : Memory → Nat → Byte
  | [], _ => Memory.unlisted
  | (k, v) :: rest, addr => if k = addr then v else Memory.read rest addr

/-- `MemWrite(space, addr, 1, v)` (`00_scope.md` section 6.3), keeping the canonical form. -/
def Memory.write : Memory → Nat → Byte → Memory
  | [], addr, v => if v = Memory.unlisted then [] else [(addr, v)]
  | (k, u) :: rest, addr, v =>
    if k < addr then (k, u) :: Memory.write rest addr v
    else if k = addr then (if v = Memory.unlisted then rest else (addr, v) :: rest)
    else if v = Memory.unlisted then (k, u) :: rest
    else (addr, v) :: (k, u) :: rest

/-- The canonical form: offsets strictly rising, and no byte equal to what an unlisted offset reads as. -/
abbrev Memory.wf (m : Memory) : Prop :=
  m.Pairwise (fun x y => x.1 < y.1) ∧ ∀ c ∈ m, c.2 ≠ Memory.unlisted

/-- The first `len` bytes of a byte space, offset 0 first (`20_memory.md` R36). -/
def Memory.bytes (m : Memory) (len : Nat) : List Byte := (List.range len).map (Memory.read m)

/-- The byte space that holds the sequence `bs` from offset `start` on: how a caller lays out a pattern
(`30_encoding.md` R73 with `start` 0). -/
def Memory.layOut : List Byte → Nat → Memory
  | [], _ => []
  | b :: rest, start =>
    if b = Memory.unlisted then Memory.layOut rest (start + 1) else (start, b) :: Memory.layOut rest (start + 1)

/-- The byte space that holds exactly the sequence `bs` at offsets 0 to `len(bs) - 1`. -/
def Memory.ofBytes (bs : List Byte) : Memory := Memory.layOut bs 0

/-- The read `x[c]` of a channel register (`00_scope.md` section 6.2). -/
def State.x (s : State) : Channel → Byte
  | .red => s.red
  | .green => s.green
  | .blue => s.blue

/-- The write `x[c] <- v`: one register, the other two unchanged (`10_state.md` R12). -/
def State.setX (s : State) (c : Channel) (v : Byte) : State :=
  match c with
  | .red => { s with red := v }
  | .green => { s with green := v }
  | .blue => { s with blue := v }

/-- The operation completes: its result is the caller's (`20_memory.md` R33, R42; `30_encoding.md` R78). -/
def State.deliver (s : State) (r : Result) : State := { s with returned := s.returned ++ [r] }

/-- The caller issues an operation: its two byte spaces are those of the moment of issue (`20_memory.md` R49), and
`rest` is what the caller issues after it. -/
def State.accept (s : State) (zp op : Memory) (rest : List Input) : State :=
  { s with zp := zp, op := op, inputs := rest }

/-- The effect of reset: the three registers at 0x00 (`70_reset_and_hazards.md` R190); the byte spaces and the results
already returned are the caller's and untouched (the table under R190). -/
def State.applyReset (s : State) : State := ((s.setX .red 0x00#8).setX .green 0x00#8).setX .blue 0x00#8

end Sys2Proof.Machine
end

