-- ==== Sys2Proof/Syntax.lean ====
section
/-! DEFINITION. The eleven operations of the block (`30_encoding.md` R70), with the operand fields each one uses.
A field the operation ignores (R71) is no argument. -/

namespace Sys2Proof

/-- A pattern operand as the command word spells it (`30_encoding.md` R73): absent, or present with its length in
bytes. The bytes themselves stand in the byte space ZP or OP. Lengths are natural numbers (`41_encode.md` R138). -/
inductive Descriptor where
  | absent
  | present (len : Nat)
deriving DecidableEq, Repr

/-- The operations, one constructor per row of the opcode table; the type is closed (`30_encoding.md` R72). -/
inductive Instr where
  /-- CREATE_DEFAULT, `40_pixel_ops.md` R90. -/
  | createDefault
  /-- CREATE red, green, blue, R91. -/
  | create (red green blue : Word)
  /-- CREATE_FROM_PACKED value, R92. -/
  | createFromPacked (value : Word)
  /-- TO_PACKED, R93. -/
  | toPacked
  /-- GET_RED, R94. -/
  | getRed
  /-- GET_GREEN, R95. -/
  | getGreen
  /-- GET_BLUE, R96. -/
  | getBlue
  /-- SET_RED value, R97. -/
  | setRed (value : Word)
  /-- SET_GREEN value, R98. -/
  | setGreen (value : Word)
  /-- SET_BLUE value, R99. -/
  | setBlue (value : Word)
  /-- ENCODE zero_pattern, one_pattern, `41_encode.md` R120, R129. -/
  | encode (zero one : Descriptor)
deriving DecidableEq, Repr

end Sys2Proof
end

