-- ==== Sys2Proof/Machine/Operands.lean ====
section
/-! DEFINITION. Every operand and result form: narrowing of a channel operand (`30_encoding.md` R61), the packed colour
word (R60), the zero-extended result (R78), and the pattern operand with the test of a valid ENCODE
(R73; `41_encode.md` R121). -/

namespace Sys2Proof.Machine

/-- `trunc_8(v) = v[7:0]`: wraps, never saturates, records nothing (`30_encoding.md` R61; `40_pixel_ops.md` R104). -/
def trunc8 (v : Word) : Byte := v.extractLsb' 0 8

/-- `zext_32(b)` (`00_scope.md` section 6.1; `30_encoding.md` R78). -/
def zext32 (b : Byte) : Word := b.zeroExtend 32

/-- The blue byte of a packed value, `v & 0xFF` (`40_pixel_ops.md` R105). -/
def packedBlue (v : Word) : Byte := trunc8 (v &&& 0xFF#32)

/-- The green byte of a packed value, `(v >> 8) & 0xFF`: shift first, mask second (R105). -/
def packedGreen (v : Word) : Byte := trunc8 ((v >>> 8) &&& 0xFF#32)

/-- The red byte of a packed value, `(v >> 16) & 0xFF` (R105). -/
def packedRed (v : Word) : Byte := trunc8 ((v >>> 16) &&& 0xFF#32)

/-- The packed value of three channels, composed at 32-bit width (`40_pixel_ops.md` R93, R106). -/
def compose (r g b : Byte) : Word := ((zext32 r) <<< 16) ||| ((zext32 g) <<< 8) ||| zext32 b

/-- The common length `L` of a valid ENCODE, `none` when it is degenerate. Absence is tested first, then emptiness,
then mismatch (`41_encode.md` R121, R129; `60_exceptions.md` R165); which one failed is not reported (R161). -/
def symbolLength : Descriptor → Descriptor → Option Nat
  | .absent, .absent => none
  | .absent, .present _ => none
  | .present _, .absent => none
  | .present lz, .present lo =>
    if lz = 0 ∨ lo = 0 then none
    else if lz ≠ lo then none
    else some lz

end Sys2Proof.Machine
end

