-- ==== Sys2Proof/Machine/Encode.lean ====
section
/-! DEFINITION. The ENCODE transform, as the pseudocode of `41_encode.md` R129 runs it: the validity test, then 24 symbol
copies in wire order at a write position that advances by the pattern length. -/

namespace Sys2Proof.Machine

/-- The order in which the channels are processed: Green, Red, Blue (`41_encode.md` R124; `30_encoding.md` R62). -/
def wireOrder : List Channel := [.green, .red, .blue]

/-- The order of the bits within a channel: 7 down to 0 (`41_encode.md` R125; `30_encoding.md` R63). -/
def bitOrder : List Nat := [7, 6, 5, 4, 3, 2, 1, 0]

/-- Bit `n` of a channel value counts as set when `(ch & (1 << n))` is non-zero (`41_encode.md` R126). -/
def bitSet (ch : Byte) (n : Nat) : Bool := (ch &&& (0x01#8 <<< n)) != 0x00#8

/-- The transient values of a running ENCODE: the write position and OUT as written so far (`10_state.md` R18). -/
structure Cursor where
  wp : Nat
  out : Memory
deriving DecidableEq, Repr

/-- `for j in 0 .. L-1: MemWrite(OUT, wp + j, 1, MemRead(pattern, j, 1))` (`41_encode.md` R127). -/
def copySymbol (pattern : Memory) (len wp : Nat) (out : Memory) : Memory :=
  (List.range len).foldl (fun o j => Memory.write o (wp + j) (Memory.read pattern j)) out

/-- One serial bit: the one-pattern if the bit is set, else the zero-pattern, copied at the write position, which then
advances by the pattern length (`41_encode.md` R126, R127, R128). -/
def expandBit (zp op : Memory) (len : Nat) (ch : Byte) (c : Cursor) (n : Nat) : Cursor :=
  { wp := c.wp + len
    out := if bitSet ch n then copySymbol op len c.wp c.out else copySymbol zp len c.wp c.out }

/-- The eight bits of one channel, most significant first. -/
def expandChannel (zp op : Memory) (len : Nat) (ch : Byte) (c : Cursor) : Cursor :=
  bitOrder.foldl (expandBit zp op len ch) c

/-- All 24 bits of the Pixel, into a new OUT from write position 0 (`41_encode.md` R129). -/
def expandPixel (s : State) (len : Nat) : Cursor :=
  wireOrder.foldl (fun c ch => expandChannel s.zp s.op len (s.x ch) c) { wp := 0, out := [] }

/-- The buffer ENCODE returns: `24 * L` bytes when valid, the empty sentinel when degenerate
(`41_encode.md` R122, R123, R129). -/
def encodeBuffer (zero one : Descriptor) (s : State) : List Byte :=
  match symbolLength zero one with
  | none => []
  | some len => Memory.bytes (expandPixel s len).out (24 * len)

/-- ENCODE (`41_encode.md` R129): returns OUT, changes neither the Pixel (R131) nor the patterns (R132). -/
def execEncode (zero one : Descriptor) (s : State) : Host.Outcome State Fault Refusal :=
  .next (s.deliver (.buffer (encodeBuffer zero one s)))

end Sys2Proof.Machine
end

