-- ==== Sys2Proof/Machine/Pixel.lean ====
section
/-! DEFINITION. The ten operations of the Pixel value type (`40_pixel_ops.md` R90 to R99). Each completes on every
operand in every state (R102) and touches no byte space. -/

namespace Sys2Proof.Machine

/-- The three channels loaded at once, nothing returned: what the CREATE operations share. -/
def loadPixel (r g b : Byte) (s : State) : Host.Outcome State Fault Refusal :=
  .next ((((s.setX .red r).setX .green g).setX .blue b).deliver .nothing)

/-- One channel loaded from a channel operand, nothing returned: what the SET operations share. -/
def loadChannel (c : Channel) (value : Word) (s : State) : Host.Outcome State Fault Refusal :=
  .next ((s.setX c (trunc8 value)).deliver .nothing)

/-- One channel returned, zero-extended: what the GET operations share. -/
def returnChannel (c : Channel) (s : State) : Host.Outcome State Fault Refusal :=
  .next (s.deliver (.word (zext32 (s.x c))))

/-- CREATE_DEFAULT (`40_pixel_ops.md` R90). -/
def execCreateDefault (s : State) : Host.Outcome State Fault Refusal := loadPixel 0x00#8 0x00#8 0x00#8 s

/-- CREATE (R91). -/
def execCreate (red green blue : Word) (s : State) : Host.Outcome State Fault Refusal :=
  loadPixel (trunc8 red) (trunc8 green) (trunc8 blue) s

/-- CREATE_FROM_PACKED (R92). -/
def execCreateFromPacked (value : Word) (s : State) : Host.Outcome State Fault Refusal :=
  loadPixel (packedRed value) (packedGreen value) (packedBlue value) s

/-- TO_PACKED (R93). -/
def execToPacked (s : State) : Host.Outcome State Fault Refusal :=
  .next (s.deliver (.word (compose (s.x .red) (s.x .green) (s.x .blue))))

/-- GET_RED (R94). -/
def execGetRed (s : State) : Host.Outcome State Fault Refusal := returnChannel .red s

/-- GET_GREEN (R95). -/
def execGetGreen (s : State) : Host.Outcome State Fault Refusal := returnChannel .green s

/-- GET_BLUE (R96). -/
def execGetBlue (s : State) : Host.Outcome State Fault Refusal := returnChannel .blue s

/-- SET_RED (R97). -/
def execSetRed (value : Word) (s : State) : Host.Outcome State Fault Refusal := loadChannel .red value s

/-- SET_GREEN (R98). -/
def execSetGreen (value : Word) (s : State) : Host.Outcome State Fault Refusal := loadChannel .green value s

/-- SET_BLUE (R99). -/
def execSetBlue (value : Word) (s : State) : Host.Outcome State Fault Refusal := loadChannel .blue value s

end Sys2Proof.Machine
end

