-- ==== Sys2Proof/Machine/Dispatch.lean ====
section
/-! DEFINITION. The dispatch: one arm per operation of `30_encoding.md` R70. -/

namespace Sys2Proof.Machine

def exec (i : Instr) (s : State) : Host.Outcome State Fault Refusal :=
  match i with
  | .createDefault => Sys2Proof.Machine.execCreateDefault s
  | .create red green blue => Sys2Proof.Machine.execCreate red green blue s
  | .createFromPacked value => Sys2Proof.Machine.execCreateFromPacked value s
  | .toPacked => Sys2Proof.Machine.execToPacked s
  | .getRed => Sys2Proof.Machine.execGetRed s
  | .getGreen => Sys2Proof.Machine.execGetGreen s
  | .getBlue => Sys2Proof.Machine.execGetBlue s
  | .setRed value => Sys2Proof.Machine.execSetRed value s
  | .setGreen value => Sys2Proof.Machine.execSetGreen value s
  | .setBlue value => Sys2Proof.Machine.execSetBlue value s
  | .encode zero one => Sys2Proof.Machine.execEncode zero one s

end Sys2Proof.Machine
end

