-- ==== Sys2Proof/Decode.lean ====
section
/-! DEFINITION. The command word (`30_encoding.md` R69), the decoder, total and rejecting the reserved opcodes by name
(R70, R71, R72, R73, R75), the encoder (the assembler of R76, which writes zero in ignored fields) and the
pseudo-operations (R77). -/

namespace Sys2Proof

/-- `CW[99:96]`, the opcode. -/
def opField (w : CommandWord) : BitVec 4 := w.extractLsb' 96 4

/-- `CW[95:64]`, the operand field `A`. -/
def aField (w : CommandWord) : Word := w.extractLsb' 64 32

/-- `CW[63:32]`, the operand field `B`. -/
def bField (w : CommandWord) : Word := w.extractLsb' 32 32

/-- `CW[31:0]`, the operand field `C`. -/
def cField (w : CommandWord) : Word := w.extractLsb' 0 32

/-- The command word with the given four fields at their places, written `op_A_B_C` in the spec. -/
def commandWord (op : BitVec 4) (a b c : Word) : CommandWord :=
  (op.setWidth 100 <<< 96) ||| (a.setWidth 100 <<< 64) ||| (b.setWidth 100 <<< 32) ||| c.setWidth 100

/-- A 32-bit pattern descriptor read: bit 31 is `present`, bits 30:0 are `len`, ignored when absent
(`30_encoding.md` R73, R71). -/
def decodeDescriptor (d : Word) : Descriptor :=
  if d.getLsbD 31 then .present (d.extractLsb' 0 31).toNat else .absent

/-- A pattern descriptor written; an absent one is all zero (R73, and the worked encodings of section 8). -/
def encodeDescriptor : Descriptor → Word
  | .absent => 0#32
  | .present len => (1#32 <<< 31) ||| (BitVec.ofNat 31 len).setWidth 32

/-- Why a command word spells no operation. -/
inductive DecodeError where
  /-- Opcodes 0xB to 0xF are reserved (`30_encoding.md` R72). -/
  | reservedOpcode (op : BitVec 4)
deriving DecidableEq, Repr

/-- The decoder: by `op` alone (`30_encoding.md` R69, R75), over the table of R70. -/
def decode (w : CommandWord) : Except DecodeError Instr :=
  match (opField w).toNat with
  | 0x0 => .ok .createDefault
  | 0x1 => .ok (.create (aField w) (bField w) (cField w))
  | 0x2 => .ok (.createFromPacked (aField w))
  | 0x3 => .ok .toPacked
  | 0x4 => .ok .getRed
  | 0x5 => .ok .getGreen
  | 0x6 => .ok .getBlue
  | 0x7 => .ok (.setRed (aField w))
  | 0x8 => .ok (.setGreen (aField w))
  | 0x9 => .ok (.setBlue (aField w))
  | 0xA => .ok (.encode (decodeDescriptor (aField w)) (decodeDescriptor (bField w)))
  | _ => .error (.reservedOpcode (opField w))

/-- The opcode of each operation (`30_encoding.md` R70). -/
def opcode : Instr → BitVec 4
  | .createDefault => 0x0#4
  | .create _ _ _ => 0x1#4
  | .createFromPacked _ => 0x2#4
  | .toPacked => 0x3#4
  | .getRed => 0x4#4
  | .getGreen => 0x5#4
  | .getBlue => 0x6#4
  | .setRed _ => 0x7#4
  | .setGreen _ => 0x8#4
  | .setBlue _ => 0x9#4
  | .encode _ _ => 0xA#4

/-- The mnemonic of each operation (`30_encoding.md` R70, R79). -/
def mnemonic : Instr → String
  | .createDefault => "CREATE_DEFAULT"
  | .create _ _ _ => "CREATE"
  | .createFromPacked _ => "CREATE_FROM_PACKED"
  | .toPacked => "TO_PACKED"
  | .getRed => "GET_RED"
  | .getGreen => "GET_GREEN"
  | .getBlue => "GET_BLUE"
  | .setRed _ => "SET_RED"
  | .setGreen _ => "SET_GREEN"
  | .setBlue _ => "SET_BLUE"
  | .encode _ _ => "ENCODE"

/-- The encoder: the command word of an operation, zero in every ignored field (`30_encoding.md` R70, R71, R76). -/
def encode : Instr → CommandWord
  | .createDefault => commandWord (opcode .createDefault) 0 0 0
  | .create r g b => commandWord (opcode (.create r g b)) r g b
  | .createFromPacked v => commandWord (opcode (.createFromPacked v)) v 0 0
  | .toPacked => commandWord (opcode .toPacked) 0 0 0
  | .getRed => commandWord (opcode .getRed) 0 0 0
  | .getGreen => commandWord (opcode .getGreen) 0 0 0
  | .getBlue => commandWord (opcode .getBlue) 0 0 0
  | .setRed v => commandWord (opcode (.setRed v)) v 0 0
  | .setGreen v => commandWord (opcode (.setGreen v)) v 0 0
  | .setBlue v => commandWord (opcode (.setBlue v)) v 0 0
  | .encode z o => commandWord (opcode (.encode z o)) (encodeDescriptor z) (encodeDescriptor o) 0

/-- The pseudo-operation `SET_PACKED <value>` (`30_encoding.md` R77). -/
def pseudoSetPacked (v : Word) : Instr := .createFromPacked v

/-- The pseudo-operation `GET_PACKED` (R77). -/
def pseudoGetPacked : Instr := .toPacked

/-- The pseudo-operation `DECOMPOSE <value>` (R77). -/
def pseudoDecompose (v : Word) : Instr := .createFromPacked v

/-- The pseudo-operation `COMPOSE` (R77). -/
def pseudoCompose : Instr := .toPacked

/-- The command word a row of the opcode table spells: the table numbers the 100 bits of `CW` with bit 0 the least
significant, so its number is the word. Every row has all 100 bits, so the row's width says nothing more, and a bit
above 99 is no bit of a command word (log entry 8). -/
def tableWord (_nbits w : Nat) : CommandWord := BitVec.ofNat 100 w

/-- The operation the decoder reads from a row's bits, `none` where it refuses. -/
def decodeTableWord (nbits w : Nat) : Option Instr :=
  match decode (tableWord nbits w) with
  | .ok i => some i
  | .error _ => none

end Sys2Proof
end

