-- ==== Sys2Proof/Machine/Fetch.lean ====
section
/-! DEFINITION. Taking the caller's next input. The block has no program counter and fetches no instruction
(`10_state.md` R15; `20_memory.md` R47): operations arrive one at a time from the caller, in issue order (R42). -/

namespace Sys2Proof.Machine

/-- What the block finds at its command port. -/
inductive Fetched where
  /-- No input: the block is idle and waits (`70_reset_and_hazards.md` R192; log entry 6). -/
  | idle
  /-- Reset was applied, with the state after it (R190). -/
  | afterReset (s : State)
  /-- A command word that spells `i`, with the state in which `i` runs. -/
  | run (i : Instr) (s : State)
  /-- A command word the decoder refuses (`30_encoding.md` R72). -/
  | rejected (why : DecodeError)
deriving DecidableEq, Repr

/-- The next input, taken and decoded. -/
def fetch (s : State) : Fetched :=
  match s.inputs with
  | [] => .idle
  | .reset :: rest => .afterReset (State.applyReset { s with inputs := rest })
  | .command w zp op :: rest =>
    match decode w with
    | .ok i => .run i (s.accept zp op rest)
    | .error why => .rejected why

/-- The refusal that stands for a decoder's rejection. -/
def refusalOf : DecodeError → Refusal
  | .reservedOpcode op => .reservedOpcode op

/-- The caller issues `w` as the very next operation, with the byte spaces as they stand (log entry 8). -/
def State.issueNext (s : State) (w : CommandWord) : State :=
  { s with inputs := .command w s.zp s.op :: s.inputs }

end Sys2Proof.Machine
end

