-- ==== Sys2Proof/Machine/Step.lean ====
section
/-! DEFINITION. One step: the caller's next input takes effect, whole (`00_scope.md` R8; `20_memory.md` R42). -/

namespace Sys2Proof.Machine

/-- One atomic step. With no input the block stays as it is. -/
def step (s : State) : Host.Outcome State Fault Refusal :=
  match fetch s with
  | .idle => .next s
  | .afterReset s' => .next s'
  | .run i s' => exec i s'
  | .rejected why => .refused (refusalOf why)

/-- `s` with the row's word issued as the next operation. -/
def State.withFetchWord (s : State) (nbits w : Nat) : State := s.issueNext (tableWord nbits w)

end Sys2Proof.Machine
end

