-- ==== Sys2Proof/Laws/Memory.lean ====
section
/-! SUPPORT. The laws of a byte space: a read after a write, the canonical form kept by every operation, and equality of
byte spaces that read the same. -/

namespace Sys2Proof.Machine

@[simp] theorem Memory.read_nil (a : Nat) : Memory.read [] a = Memory.unlisted := rfl

theorem Memory.read_cons (k a : Nat) (v : Byte) (m : Memory) :
    Memory.read ((k, v) :: m) a = if k = a then v else Memory.read m a := rfl

theorem Memory.wf_nil : Memory.wf [] := by simp [Memory.wf]

/-- A nonempty byte space is canonical when its head is a listed byte below everything in a canonical tail. -/
theorem Memory.wf_cons {k : Nat} {v : Byte} {m : Memory} :
    Memory.wf ((k, v) :: m) ↔ v ≠ Memory.unlisted ∧ (∀ c ∈ m, k < c.1) ∧ Memory.wf m := by
  simp only [Memory.wf, List.pairwise_cons, List.forall_mem_cons]
  tauto

/-- An offset below every listed one reads as unlisted. -/
theorem Memory.read_below {m : Memory} {a : Nat} (h : ∀ c ∈ m, a < c.1) : Memory.read m a = Memory.unlisted := by
  induction m with
  | nil => rfl
  | cons c m ih =>
    obtain ⟨k, v⟩ := c
    have hk : a < k := h (k, v) (by simp)
    rw [Memory.read_cons, if_neg (by omega)]
    exact ih fun c hc => h c (List.mem_cons_of_mem _ hc)

/-- Every pair of a byte space after a write is the written one or was there before. -/
theorem Memory.mem_write {m : Memory} {a : Nat} {v : Byte} {c : Host.Cell} (h : c ∈ Memory.write m a v) :
    (c = (a, v) ∧ v ≠ Memory.unlisted) ∨ c ∈ m := by
  induction m with
  | nil =>
    simp only [Memory.write] at h
    split at h
    · simp at h
    · exact .inl ⟨by simpa using h, ‹_›⟩
  | cons d m ih =>
    obtain ⟨k, u⟩ := d
    simp only [Memory.write] at h
    split_ifs at h <;> simp only [List.mem_cons] at h ⊢ <;> tauto

/-- A write keeps the canonical form. -/
theorem Memory.write_wf {m : Memory} (a : Nat) (v : Byte) (h : Memory.wf m) : Memory.wf (Memory.write m a v) := by
  induction m with
  | nil =>
    simp only [Memory.write]
    split
    · exact Memory.wf_nil
    · exact Memory.wf_cons.2 ⟨‹_›, by simp, Memory.wf_nil⟩
  | cons d m ih =>
    obtain ⟨k, u⟩ := d
    obtain ⟨hu, hlow, hm⟩ := Memory.wf_cons.1 h
    simp only [Memory.write]
    split_ifs with h1 h2 h3 h4
    · refine Memory.wf_cons.2 ⟨hu, fun c hc => ?_, ih hm⟩
      obtain ⟨rfl, -⟩ | hc := Memory.mem_write hc
      · exact h1
      · exact hlow c hc
    · exact hm
    · exact Memory.wf_cons.2 ⟨h3, fun c hc => h2 ▸ hlow c hc, hm⟩
    · exact h
    · refine Memory.wf_cons.2 ⟨h4, fun c hc => ?_, h⟩
      obtain rfl | hc := List.mem_cons.1 hc
      · show a < k
        omega
      · have := hlow c hc
        omega

/-- What a byte reads as after a write to a canonical byte space. -/
theorem Memory.read_write {m : Memory} (h : Memory.wf m) (a b : Nat) (v : Byte) :
    Memory.read (Memory.write m a v) b = if a = b then v else Memory.read m b := by
  induction m with
  | nil =>
    by_cases hv : v = Memory.unlisted
    · simp [Memory.write, hv]
    · simp [Memory.write, hv, Memory.read_cons]
  | cons d m ih =>
    obtain ⟨k, u⟩ := d
    obtain ⟨-, hlow, hm⟩ := Memory.wf_cons.1 h
    rcases Nat.lt_trichotomy k a with hk | rfl | hk
    · simp only [Memory.write, hk, if_true, Memory.read_cons, ih hm]
      by_cases hb : a = b
      · simp [hb, show k ≠ b by omega]
      · simp [hb]
    · by_cases hv : v = Memory.unlisted
      · by_cases hb : k = b
        · subst hb
          simp [Memory.write, hv, Memory.read_below hlow]
        · simp [Memory.write, hv, hb, Memory.read_cons]
      · by_cases hb : k = b <;> simp [Memory.write, hv, hb, Memory.read_cons]
    · have hbelow : ∀ c ∈ (k, u) :: m, a < c.1 := by
        intro c hc
        obtain rfl | hc := List.mem_cons.1 hc
        · exact hk
        · exact hk.trans (hlow c hc)
      have hwrite : Memory.write ((k, u) :: m) a v =
          if v = Memory.unlisted then (k, u) :: m else (a, v) :: (k, u) :: m := by
        simp only [Memory.write, if_neg (show ¬ k < a by omega), if_neg (show k ≠ a by omega)]
      rw [hwrite]
      by_cases hb : a = b
      · subst hb
        by_cases hv : v = Memory.unlisted
        · simp [hv, Memory.read_below hbelow]
        · simp [hv, Memory.read_cons]
      · by_cases hv : v = Memory.unlisted <;> simp [hv, hb, Memory.read_cons]

/-- Canonical byte spaces that read the same at every offset are the same data. -/
theorem Memory.eq_of_read_eq {m n : Memory} (hm : Memory.wf m) (hn : Memory.wf n)
    (h : ∀ a, Memory.read m a = Memory.read n a) : m = n := by
  induction m generalizing n with
  | nil =>
    cases n with
    | nil => rfl
    | cons d n =>
      obtain ⟨k, u⟩ := d
      have := h k
      simp only [Memory.read_nil, Memory.read_cons, if_true] at this
      exact absurd this.symm (Memory.wf_cons.1 hn).1
  | cons c m ih =>
    obtain ⟨k, u⟩ := c
    obtain ⟨hu, hlow, hm'⟩ := Memory.wf_cons.1 hm
    cases n with
    | nil =>
      have := h k
      simp only [Memory.read_nil, Memory.read_cons, if_true] at this
      exact absurd this hu
    | cons d n =>
      obtain ⟨l, w⟩ := d
      obtain ⟨hw, hlow', hn'⟩ := Memory.wf_cons.1 hn
      rcases Nat.lt_trichotomy k l with hkl | rfl | hkl
      · have := h k
        rw [Memory.read_cons, if_pos rfl, Memory.read_below (m := (l, w) :: n)] at this
        · exact absurd this hu
        · intro c hc
          obtain rfl | hc := List.mem_cons.1 hc
          · exact hkl
          · exact hkl.trans (hlow' c hc)
      · have huw : u = w := by simpa [Memory.read_cons] using h k
        subst huw
        congr 1
        refine ih hm' hn' fun a => ?_
        by_cases ha : k = a
        · subst ha
          rw [Memory.read_below hlow, Memory.read_below hlow']
        · simpa [Memory.read_cons, ha] using h a
      · have := h l
        rw [Memory.read_cons (k := l), if_pos rfl, Memory.read_below (m := (k, u) :: m)] at this
        · exact absurd this.symm hw
        · intro c hc
          obtain rfl | hc := List.mem_cons.1 hc
          · exact hkl
          · exact hkl.trans (hlow c hc)

/-- Every offset a laid-out sequence lists is at or above its start. -/
theorem Memory.layOut_low {bs : List Byte} {start : Nat} {c : Host.Cell} (h : c ∈ Memory.layOut bs start) :
    start ≤ c.1 := by
  induction bs generalizing start with
  | nil => simp [Memory.layOut] at h
  | cons b bs ih =>
    simp only [Memory.layOut] at h
    split_ifs at h
    · exact (Nat.le_succ _).trans (ih h)
    · obtain rfl | h := List.mem_cons.1 h
      · exact Nat.le_refl _
      · exact (Nat.le_succ _).trans (ih h)

/-- A sequence is laid out in canonical form. -/
theorem Memory.layOut_wf (bs : List Byte) (start : Nat) : Memory.wf (Memory.layOut bs start) := by
  induction bs generalizing start with
  | nil => exact Memory.wf_nil
  | cons b bs ih =>
    simp only [Memory.layOut]
    split_ifs with hb
    · exact ih _
    · exact Memory.wf_cons.2 ⟨hb, fun c hc => Memory.layOut_low hc, ih _⟩

/-- What a laid-out sequence reads as: its bytes, and beyond them what an unlisted offset reads as. -/
theorem Memory.read_layOut (bs : List Byte) (start j : Nat) :
    Memory.read (Memory.layOut bs start) (start + j) = bs.getD j Memory.unlisted := by
  induction bs generalizing start j with
  | nil => simp [Memory.layOut]
  | cons b bs ih =>
    cases j with
    | zero =>
      simp only [Memory.layOut]
      split_ifs with hb
      · have hlow : ∀ c ∈ Memory.layOut bs (start + 1), start < c.1 := fun c hc => Memory.layOut_low hc
        simpa [hb] using Memory.read_below hlow
      · simp [Memory.read_cons]
    | succ j =>
      have := ih (start + 1) j
      rw [show start + 1 + j = start + (j + 1) by omega] at this
      simp only [Memory.layOut]
      split_ifs
      · simpa using this
      · rw [Memory.read_cons, if_neg (by omega)]
        simpa using this

theorem Memory.ofBytes_wf (bs : List Byte) : Memory.wf (Memory.ofBytes bs) := Memory.layOut_wf bs 0

theorem Memory.read_ofBytes (bs : List Byte) (j : Nat) :
    Memory.read (Memory.ofBytes bs) j = bs.getD j Memory.unlisted := by
  simpa [Memory.ofBytes] using Memory.read_layOut bs 0 j

@[simp] theorem Memory.bytes_length (m : Memory) (len : Nat) : (Memory.bytes m len).length = len := by
  simp [Memory.bytes]

/-- A pattern laid out in a byte space is read back byte for byte. -/
theorem Memory.bytes_ofBytes (bs : List Byte) : Memory.bytes (Memory.ofBytes bs) bs.length = bs := by
  refine List.ext_getElem (by simp) fun j h1 h2 => ?_
  simp [Memory.bytes, Memory.read_ofBytes, h2]

end Sys2Proof.Machine
end

