-- ==== Sys2Proof/Machine/Transform.lean ====
section
/-! DEFINITION. The spec's own view of the machine at the level of the abstract operation (`00_scope.md` sections 1 and 9):
patterns are absent or byte sequences, the serial frame and the transform are values (`30_encoding.md` R64 to R67, R73),
and an assembler turns an operation into a command word with its byte spaces (R76). The machine of Step.lean runs on
command words and byte spaces; the statements hold the two views against each other. -/

namespace Sys2Proof.Machine

/-- A pattern operand: absent, or a finite byte sequence of length 0 or more (`30_encoding.md` R73). -/
abbrev Pattern := Option (List Byte)

/-- The three channels together (`10_state.md` R10). -/
structure Pixel where
  red : Byte
  green : Byte
  blue : Byte
deriving DecidableEq, Repr

/-- The Pixel a state holds. -/
def State.pixel (s : State) : Pixel := { red := s.red, green := s.green, blue := s.blue }

/-- The serial bit `b_k`, `k` in 0 to 23: with `c = k div 8` and `n = 7 - (k mod 8)`, bit `n` of GREEN, RED or BLUE as
`c` is 0, 1 or 2 (`30_encoding.md` R64). There is no serial bit beyond 23. -/
def Pixel.serialBit (p : Pixel) (k : Nat) : Bool :=
  match k / 8 with
  | 0 => p.green.getLsbD (7 - k % 8)
  | 1 => p.red.getLsbD (7 - k % 8)
  | 2 => p.blue.getLsbD (7 - k % 8)
  | _ => false

/-- The frame word `F = GREEN || RED || BLUE` (`30_encoding.md` R64). -/
def Pixel.frameWord (p : Pixel) : BitVec 24 :=
  BitVec.cast (show 8 + 8 + 8 = 24 from rfl) (p.green ++ p.red ++ p.blue)

/-- The serial frame `b_0, ..., b_23` (R64). -/
def Pixel.serialFrame (p : Pixel) : List Bool := (List.range 24).map p.serialBit

/-- `P(b)`: the one-pattern for a set bit, the zero-pattern for a clear one (`30_encoding.md` R65). -/
def symbol (zero one : List Byte) (b : Bool) : List Byte := if b then one else zero

/-- `P(b_0) ++ ... ++ P(b_23)` (`30_encoding.md` R66). -/
def expansion (p : Pixel) (zero one : List Byte) : List Byte := p.serialFrame.flatMap (symbol zero one)

/-- A valid pair of patterns (`41_encode.md` R121): both present, both non-empty, of one length. -/
def validPatterns : Pattern → Pattern → Bool
  | none, none => false
  | none, some _ => false
  | some _, none => false
  | some z, some o => decide (1 ≤ z.length) && decide (1 ≤ o.length) && decide (z.length = o.length)

/-- The transform as a value (`41_encode.md` R121, R122, `30_encoding.md` R66, R68). -/
def transform (p : Pixel) (zero one : Pattern) : List Byte :=
  if validPatterns zero one then expansion p (zero.getD []) (one.getD []) else []

/-- The eleven operations with abstract operands (`00_scope.md` section 9). -/
inductive Operation where
  | createDefault
  | create (red green blue : Word)
  | createFromPacked (value : Word)
  | toPacked
  | getRed
  | getGreen
  | getBlue
  | setRed (value : Word)
  | setGreen (value : Word)
  | setBlue (value : Word)
  | encode (zero one : Pattern)
deriving DecidableEq, Repr

/-- `step : State -> Op -> State × Result` of `00_scope.md` section 9, on the block's own state, with the arithmetic
readings of narrowing (`40_pixel_ops.md` R104), of `v[hi:lo]` (`00_scope.md` section 6.1) and of the packed value
(`30_encoding.md` R60). -/
def Operation.apply (p : Pixel) : Operation → Pixel × Result
  | .createDefault => (⟨0x00#8, 0x00#8, 0x00#8⟩, .nothing)
  | .create r g b => (⟨BitVec.ofNat 8 r.toNat, BitVec.ofNat 8 g.toNat, BitVec.ofNat 8 b.toNat⟩, .nothing)
  | .createFromPacked v =>
    (⟨BitVec.ofNat 8 (v.toNat / 65536), BitVec.ofNat 8 (v.toNat / 256), BitVec.ofNat 8 v.toNat⟩, .nothing)
  | .toPacked =>
    (p, .word (BitVec.ofNat 32 (p.red.toNat * 65536 + p.green.toNat * 256 + p.blue.toNat)))
  | .getRed => (p, .word (BitVec.ofNat 32 p.red.toNat))
  | .getGreen => (p, .word (BitVec.ofNat 32 p.green.toNat))
  | .getBlue => (p, .word (BitVec.ofNat 32 p.blue.toNat))
  | .setRed v => ({ p with red := BitVec.ofNat 8 v.toNat }, .nothing)
  | .setGreen v => ({ p with green := BitVec.ofNat 8 v.toNat }, .nothing)
  | .setBlue v => ({ p with blue := BitVec.ofNat 8 v.toNat }, .nothing)
  | .encode z o => (p, .buffer (transform p z o))

/-- A finite sequence of operations: the end state and the results along the way (`70_reset_and_hazards.md` R204). -/
def Operation.applyAll (p : Pixel) : List Operation → Pixel × List Result
  | [] => (p, [])
  | o :: rest =>
    let first := Operation.apply p o
    let later := Operation.applyAll first.1 rest
    (later.1, first.2 :: later.2)

/-- The descriptor of a pattern (`30_encoding.md` R73). -/
def Pattern.descriptor : Pattern → Descriptor
  | none => .absent
  | some bs => .present bs.length

/-- The byte space of a pattern: it does not exist for an absent one, where nothing is listed (R73). -/
def Pattern.space : Pattern → Memory
  | none => []
  | some bs => Memory.ofBytes bs

/-- The pattern that a descriptor and a byte space spell (R73). -/
def patternOf : Descriptor → Memory → Pattern
  | .absent, _ => none
  | .present len, m => some (Memory.bytes m len)

/-- The command an abstract operation is issued as. -/
def Operation.instr : Operation → Instr
  | .createDefault => .createDefault
  | .create r g b => .create r g b
  | .createFromPacked v => .createFromPacked v
  | .toPacked => .toPacked
  | .getRed => .getRed
  | .getGreen => .getGreen
  | .getBlue => .getBlue
  | .setRed v => .setRed v
  | .setGreen v => .setGreen v
  | .setBlue v => .setBlue v
  | .encode z o => .encode (Pattern.descriptor z) (Pattern.descriptor o)

/-- The pattern operands an operation has: only ENCODE has any (`20_memory.md` R30). -/
def Operation.patterns : Operation → Pattern × Pattern
  | .createDefault => (none, none)
  | .create _ _ _ => (none, none)
  | .createFromPacked _ => (none, none)
  | .toPacked => (none, none)
  | .getRed => (none, none)
  | .getGreen => (none, none)
  | .getBlue => (none, none)
  | .setRed _ => (none, none)
  | .setGreen _ => (none, none)
  | .setBlue _ => (none, none)
  | .encode zero one => (zero, one)

/-- The assembler (`30_encoding.md` R76): the command word, and the byte spaces of the patterns. -/
def Operation.assemble (o : Operation) : Input :=
  .command (Sys2Proof.encode o.instr) (Pattern.space o.patterns.1) (Pattern.space o.patterns.2)

end Sys2Proof.Machine
end

