-- ==== Sys2Proof/Laws/State.lean ====
section
/-! SUPPORT. One lemma per field per update of State, and what the shared register operations answer. -/

namespace Sys2Proof.Machine

variable (s : State) (c d : Channel) (v : Byte) (r : Result) (zp op : Memory) (rest : List Input)

@[simp] theorem State.setX_red_eq : s.setX .red v = { s with red := v } := rfl
@[simp] theorem State.setX_green_eq : s.setX .green v = { s with green := v } := rfl
@[simp] theorem State.setX_blue_eq : s.setX .blue v = { s with blue := v } := rfl
@[simp] theorem State.x_red : s.x .red = s.red := rfl
@[simp] theorem State.x_green : s.x .green = s.green := rfl
@[simp] theorem State.x_blue : s.x .blue = s.blue := rfl

@[simp] theorem State.setX_zp : (s.setX c v).zp = s.zp := by cases c <;> rfl
@[simp] theorem State.setX_op : (s.setX c v).op = s.op := by cases c <;> rfl
@[simp] theorem State.setX_inputs : (s.setX c v).inputs = s.inputs := by cases c <;> rfl
@[simp] theorem State.setX_returned : (s.setX c v).returned = s.returned := by cases c <;> rfl

/-- A write is read back, and leaves the other two registers alone (`10_state.md` R12). -/
theorem State.x_setX : (s.setX c v).x d = if d = c then v else s.x d := by cases c <;> cases d <;> rfl

@[simp] theorem State.deliver_red : (s.deliver r).red = s.red := rfl
@[simp] theorem State.deliver_green : (s.deliver r).green = s.green := rfl
@[simp] theorem State.deliver_blue : (s.deliver r).blue = s.blue := rfl
@[simp] theorem State.deliver_zp : (s.deliver r).zp = s.zp := rfl
@[simp] theorem State.deliver_op : (s.deliver r).op = s.op := rfl
@[simp] theorem State.deliver_inputs : (s.deliver r).inputs = s.inputs := rfl
@[simp] theorem State.deliver_returned : (s.deliver r).returned = s.returned ++ [r] := rfl

@[simp] theorem State.accept_red : (s.accept zp op rest).red = s.red := rfl
@[simp] theorem State.accept_green : (s.accept zp op rest).green = s.green := rfl
@[simp] theorem State.accept_blue : (s.accept zp op rest).blue = s.blue := rfl
@[simp] theorem State.accept_zp : (s.accept zp op rest).zp = zp := rfl
@[simp] theorem State.accept_op : (s.accept zp op rest).op = op := rfl
@[simp] theorem State.accept_inputs : (s.accept zp op rest).inputs = rest := rfl
@[simp] theorem State.accept_returned : (s.accept zp op rest).returned = s.returned := rfl

@[simp] theorem State.applyReset_red : s.applyReset.red = 0x00#8 := rfl
@[simp] theorem State.applyReset_green : s.applyReset.green = 0x00#8 := rfl
@[simp] theorem State.applyReset_blue : s.applyReset.blue = 0x00#8 := rfl
@[simp] theorem State.applyReset_zp : s.applyReset.zp = s.zp := rfl
@[simp] theorem State.applyReset_op : s.applyReset.op = s.op := rfl
@[simp] theorem State.applyReset_inputs : s.applyReset.inputs = s.inputs := rfl
@[simp] theorem State.applyReset_returned : s.applyReset.returned = s.returned := rfl

@[simp] theorem State.pixel_red : s.pixel.red = s.red := rfl
@[simp] theorem State.pixel_green : s.pixel.green = s.green := rfl
@[simp] theorem State.pixel_blue : s.pixel.blue = s.blue := rfl

end Sys2Proof.Machine
end

