-- ==== Sys2Proof/Laws/Encode.lean ====
section
/-! SUPPORT. What the copy loop of ENCODE writes: one lemma per shared operation, from the symbol copy up to the 24 bits of
the Pixel. -/

namespace Sys2Proof.Machine

/-- The bit test reads exactly one bit of the channel (`41_encode.md` R126). -/
theorem bitSet_eq (ch : Byte) {n : Nat} (hn : n < 8) : bitSet ch n = ch.getLsbD n := by
  have key : ∀ (n : Fin 8) (ch : Byte), bitSet ch n = ch.getLsbD n := by
    intro n ch
    revert n
    revert ch
    decide +kernel
  exact key ⟨n, hn⟩ ch

/-- A symbol copy appends the pattern's bytes at the write position and keeps the canonical form. -/
theorem copySymbol_wf (p : Memory) (len wp : Nat) {out : Memory} (h : Memory.wf out) :
    Memory.wf (copySymbol p len wp out) := by
  induction len with
  | zero => exact h
  | succ len ih =>
    rw [copySymbol, List.range_succ, List.foldl_append]
    exact Memory.write_wf _ _ ih

theorem read_copySymbol (p : Memory) (len wp a : Nat) {out : Memory} (h : Memory.wf out) :
    Memory.read (copySymbol p len wp out) a =
      if wp ≤ a ∧ a < wp + len then Memory.read p (a - wp) else Memory.read out a := by
  induction len with
  | zero => rw [if_neg (by omega)]; rfl
  | succ len ih =>
    rw [copySymbol, List.range_succ, List.foldl_append]
    show Memory.read (Memory.write (copySymbol p len wp out) (wp + len) (Memory.read p len)) a = _
    rw [Memory.read_write (copySymbol_wf p len wp h), ih]
    by_cases ha : wp + len = a
    · subst ha
      rw [if_pos rfl, if_pos (by omega), Nat.add_sub_cancel_left]
    · rw [if_neg ha]
      split_ifs with h1 h2 h2 <;> first | rfl | omega

theorem bytes_copySymbol (p : Memory) (len wp : Nat) {out : Memory} (h : Memory.wf out) :
    Memory.bytes (copySymbol p len wp out) (wp + len) = Memory.bytes out wp ++ Memory.bytes p len := by
  simp only [Memory.bytes, List.range_add, List.map_append, List.map_map]
  congr 1
  · refine List.map_congr_left fun j hj => ?_
    rw [read_copySymbol p len wp j h, if_neg (by have := List.mem_range.1 hj; omega)]
  · refine List.map_congr_left fun j hj => ?_
    have := List.mem_range.1 hj
    simp only [Function.comp_apply]
    rw [read_copySymbol p len wp _ h, if_pos (by omega), Nat.add_sub_cancel_left]

/-- The symbol of one serial bit, copied at the cursor. -/
def copyBit (zp op : Memory) (len : Nat) (c : Cursor) (b : Bool) : Cursor :=
  { wp := c.wp + len, out := copySymbol (if b then op else zp) len c.wp c.out }

theorem expandBit_eq (zp op : Memory) (len : Nat) (ch : Byte) (c : Cursor) (n : Nat) :
    expandBit zp op len ch c n = copyBit zp op len c (bitSet ch n) := by
  simp only [expandBit, copyBit]
  cases bitSet ch n <;> rfl

/-- Copying the symbols of a sequence of bits: where the write position ends, and what has been written. -/
theorem foldl_copyBit (zp op : Memory) (len : Nat) (bits : List Bool) (c : Cursor) (h : Memory.wf c.out) :
    let c' := bits.foldl (copyBit zp op len) c
    Memory.wf c'.out ∧ c'.wp = c.wp + bits.length * len ∧
      Memory.bytes c'.out c'.wp =
        Memory.bytes c.out c.wp ++ bits.flatMap (symbol (Memory.bytes zp len) (Memory.bytes op len)) := by
  induction bits generalizing c with
  | nil => exact ⟨h, by simp, by simp⟩
  | cons b bits ih =>
    have hwf := copySymbol_wf (if b then op else zp) len c.wp h
    obtain ⟨h1, h2, h3⟩ := ih (copyBit zp op len c b) hwf
    have hcopy : Memory.bytes (copyBit zp op len c b).out (copyBit zp op len c b).wp =
        Memory.bytes c.out c.wp ++ symbol (Memory.bytes zp len) (Memory.bytes op len) b := by
      simp only [copyBit, bytes_copySymbol _ _ _ h, symbol]
      cases b <;> rfl
    refine ⟨h1, h2.trans ?_, h3.trans ?_⟩
    · simp only [copyBit, List.length_cons, Nat.succ_mul]
      omega
    · rw [hcopy, List.append_assoc, List.flatMap_cons]

/-- The 24 bit tests of R129, in their order, are the serial frame of R64. -/
theorem serialFrame_eq (s : State) :
    wireOrder.flatMap (fun ch => bitOrder.map (bitSet (s.x ch))) = s.pixel.serialFrame := by
  have hbits : ∀ ch : Byte, bitOrder.map (bitSet ch) = bitOrder.map ch.getLsbD := by
    intro ch
    refine List.map_congr_left fun n hn => bitSet_eq ch ?_
    simp only [bitOrder, List.mem_cons, List.not_mem_nil, or_false] at hn
    omega
  simp only [hbits]
  rfl

/-- The nested loops of R129 are one loop over the serial frame. -/
theorem expandPixel_eq (s : State) (len : Nat) :
    expandPixel s len = s.pixel.serialFrame.foldl (copyBit s.zp s.op len) { wp := 0, out := [] } := by
  have hch : ∀ (c : Cursor) (ch : Byte),
      expandChannel s.zp s.op len ch c = (bitOrder.map (bitSet ch)).foldl (copyBit s.zp s.op len) c := by
    intro c ch
    rw [expandChannel, List.foldl_map]
    exact congrArg (fun f => bitOrder.foldl f c) (funext fun c => funext fun n => expandBit_eq ..)
  rw [← serialFrame_eq, List.flatMap_def, List.foldl_flatten, List.foldl_map]
  simp only [expandPixel, hch]

@[simp] theorem Pixel.serialFrame_length (p : Pixel) : p.serialFrame.length = 24 := by
  simp [Pixel.serialFrame]

/-- What a running ENCODE has done when its loops end: the write position is `24 * L` (R128), OUT is canonical, and its
first `24 * L` bytes are the expansion of the serial frame (R66). -/
theorem expandPixel_spec (s : State) (len : Nat) :
    Memory.wf (expandPixel s len).out ∧ (expandPixel s len).wp = 24 * len ∧
      Memory.bytes (expandPixel s len).out (24 * len) =
        expansion s.pixel (Memory.bytes s.zp len) (Memory.bytes s.op len) := by
  obtain ⟨h1, h2, h3⟩ := foldl_copyBit s.zp s.op len s.pixel.serialFrame { wp := 0, out := [] } Memory.wf_nil
  rw [expandPixel_eq]
  simp only [Pixel.serialFrame_length, Nat.zero_add] at h2
  refine ⟨h1, h2, ?_⟩
  rw [← h2, h3]
  simp [Memory.bytes, expansion]

end Sys2Proof.Machine
end

