-- ==== Sys2Proof/Laws/Operands.lean ====
section
/-! SUPPORT. What the operand forms read, in the spec's `v[hi:lo]` notation and as numbers. -/

namespace Sys2Proof.Machine

/-- Narrowing keeps the number modulo 256. -/
theorem trunc8_eq_ofNat (v : Word) : trunc8 v = BitVec.ofNat 8 v.toNat := by
  apply BitVec.eq_of_toNat_eq
  simp [trunc8]

/-- Widening keeps the number. -/
theorem zext32_toNat (b : Byte) : (zext32 b).toNat = b.toNat := by
  have := b.isLt
  simp only [zext32, BitVec.truncate_eq_setWidth, BitVec.toNat_setWidth]
  omega

/-- The blue byte of a packed value is `v[7:0]`. -/
theorem packedBlue_eq (v : Word) : packedBlue v = v.extractLsb' 0 8 := by
  ext i hi
  simp only [packedBlue, trunc8, BitVec.getElem_extractLsb', BitVec.getLsbD_and]
  have h : (0xFF#32).getLsbD (0 + i) = true := by interval_cases i <;> rfl
  rw [h, Bool.and_true]

/-- The green byte of a packed value is `v[15:8]`. -/
theorem packedGreen_eq (v : Word) : packedGreen v = v.extractLsb' 8 8 := by
  ext i hi
  simp only [packedGreen, trunc8, BitVec.getElem_extractLsb', BitVec.getLsbD_and, BitVec.getLsbD_ushiftRight]
  have h : (0xFF#32).getLsbD (0 + i) = true := by interval_cases i <;> rfl
  rw [h, Bool.and_true, Nat.zero_add]

/-- The red byte of a packed value is `v[23:16]`. -/
theorem packedRed_eq (v : Word) : packedRed v = v.extractLsb' 16 8 := by
  ext i hi
  simp only [packedRed, trunc8, BitVec.getElem_extractLsb', BitVec.getLsbD_and, BitVec.getLsbD_ushiftRight]
  have h : (0xFF#32).getLsbD (0 + i) = true := by interval_cases i <;> rfl
  rw [h, Bool.and_true, Nat.zero_add]

end Sys2Proof.Machine
end

