-- ==== Sys2Proof/Config.lean ====
section
/-! DEFINITION. What an implementation fixes. The spec leaves one parameter open, `PATTERN_LEN_MAX`
(`92_eei_decisions.md` D6 and its table of open parameters; `93_implementation_defined.md` U9). No value is left
undefined after an operation, so there is no free value here. -/

namespace Sys2Proof

/-- `PATTERN_LEN_MAX`, at the spec's default for the descriptor spelling: every length the 31 bits can say.
DESIGN CHOICE (log entry 5), safe for statements about shorter patterns. -/
def Config.patternLenMax : Nat := 2 ^ 31 - 1

end Sys2Proof
end

