-- ==== Sys2Proof/WellFormed.lean ====
section
/-! DEFINITION. Which operations a command word can spell. Every numeric operand is legal (`30_encoding.md` R74;
`40_pixel_ops.md` R102); the one bound is the length field of a pattern descriptor (`30_encoding.md` R73). -/

namespace Sys2Proof

/-- The length of a present pattern fits the descriptor (`30_encoding.md` R73, `92_eei_decisions.md` D6). -/
def Descriptor.wellFormed : Descriptor → Bool
  | .absent => true
  | .present len => decide (len ≤ Config.patternLenMax)

/-- An operation that some command word spells. -/
def Instr.wellFormed : Instr → Bool
  | .createDefault => true
  | .create _ _ _ => true
  | .createFromPacked _ => true
  | .toPacked => true
  | .getRed => true
  | .getGreen => true
  | .getBlue => true
  | .setRed _ => true
  | .setGreen _ => true
  | .setBlue _ => true
  | .encode zero one => zero.wellFormed && one.wellFormed

/-- The predicate the statements use. -/
abbrev WellFormed (i : Instr) : Prop := i.wellFormed = true

end Sys2Proof
end

