-- ==== Sys2Proof/Laws/Decode.lean ====
section
/-! SUPPORT. The fields of a command word and of a pattern descriptor, read back from what was written. -/

namespace Sys2Proof

variable (op : BitVec 4) (a b c : Word)

@[simp] theorem opField_commandWord : opField (commandWord op a b c) = op := by
  ext i hi
  simp only [opField, commandWord, BitVec.getElem_extractLsb', BitVec.getLsbD_or, BitVec.getLsbD_shiftLeft,
    BitVec.getLsbD_setWidth]
  have h1 : ¬ 96 + i < 96 := by omega
  have h2 : 96 + i < 100 := by omega
  have h3 : 96 + i - 96 = i := by omega
  have h4 : i < 100 := by omega
  have ha : a.getLsbD (96 + i - 64) = false := BitVec.getLsbD_of_ge _ _ (by omega)
  have hb : b.getLsbD (96 + i - 32) = false := BitVec.getLsbD_of_ge _ _ (by omega)
  have hc : c.getLsbD (96 + i) = false := BitVec.getLsbD_of_ge _ _ (by omega)
  simp [h1, h2, h3, h4, ha, hb, hc, BitVec.getLsbD_eq_getElem hi]

@[simp] theorem aField_commandWord : aField (commandWord op a b c) = a := by
  ext i hi
  simp only [aField, commandWord, BitVec.getElem_extractLsb', BitVec.getLsbD_or, BitVec.getLsbD_shiftLeft,
    BitVec.getLsbD_setWidth]
  have h0 : 64 + i < 96 := by omega
  have h1 : ¬ 64 + i < 64 := by omega
  have h2 : 64 + i < 100 := by omega
  have h3 : 64 + i - 64 = i := by omega
  have h4 : i < 100 := by omega
  have hb : b.getLsbD (64 + i - 32) = false := BitVec.getLsbD_of_ge _ _ (by omega)
  have hc : c.getLsbD (64 + i) = false := BitVec.getLsbD_of_ge _ _ (by omega)
  simp [h0, h1, h2, h3, h4, hb, hc, BitVec.getLsbD_eq_getElem hi]

@[simp] theorem bField_commandWord : bField (commandWord op a b c) = b := by
  ext i hi
  simp only [bField, commandWord, BitVec.getElem_extractLsb', BitVec.getLsbD_or, BitVec.getLsbD_shiftLeft,
    BitVec.getLsbD_setWidth]
  have h0 : 32 + i < 96 := by omega
  have h1 : 32 + i < 64 := by omega
  have h2 : 32 + i < 100 := by omega
  have h3 : 32 + i - 32 = i := by omega
  have h4 : i < 100 := by omega
  simp [h0, h1, h2, h3, h4, BitVec.getLsbD_eq_getElem hi]

@[simp] theorem cField_commandWord : cField (commandWord op a b c) = c := by
  ext i hi
  simp only [cField, commandWord, BitVec.getElem_extractLsb', BitVec.getLsbD_or, BitVec.getLsbD_shiftLeft,
    BitVec.getLsbD_setWidth]
  have h0 : i < 96 := by omega
  have h1 : i < 64 := by omega
  have h4 : i < 100 := by omega
  simp [h0, h1, h4, hi]

/-- Every command word is made of its four fields (`30_encoding.md` R69). -/
theorem commandWord_fields (w : CommandWord) : commandWord (opField w) (aField w) (bField w) (cField w) = w := by
  ext i hi
  rw [← BitVec.getLsbD_eq_getElem hi, ← BitVec.getLsbD_eq_getElem hi]
  simp only [commandWord, opField, aField, bField, cField, BitVec.getLsbD_or, BitVec.getLsbD_shiftLeft,
    BitVec.getLsbD_setWidth, BitVec.getLsbD_extractLsb']
  rcases Nat.lt_or_ge i 32 with h | h
  · simp [h, show i < 64 by omega, show i < 96 by omega, hi]
  rcases Nat.lt_or_ge i 64 with h' | h'
  · simp [h', show ¬ i < 32 by omega, show i - 32 < 32 by omega, show i < 96 by omega, hi,
      show i - 32 < 100 by omega, show 32 + (i - 32) = i by omega]
  rcases Nat.lt_or_ge i 96 with h'' | h''
  · simp [h'', show ¬ i < 32 by omega, show ¬ i < 64 by omega, show ¬ i - 32 < 32 by omega, hi,
      show i - 64 < 100 by omega, show i - 64 < 32 by omega, show 64 + (i - 64) = i by omega]
  · simp [show ¬ i < 96 by omega, show ¬ i < 32 by omega, show ¬ i < 64 by omega, show ¬ i - 32 < 32 by omega, hi,
      show ¬ i - 64 < 32 by omega, show i - 96 < 100 by omega, show i - 96 < 4 by omega,
      show 96 + (i - 96) = i by omega]

/-- A descriptor the length field can hold is read back as it was written. -/
theorem decodeDescriptor_encodeDescriptor {d : Descriptor} (h : d.wellFormed = true) :
    decodeDescriptor (encodeDescriptor d) = d := by
  cases d with
  | absent => rfl
  | present len =>
    have hlen : len < 2 ^ 31 := by
      have : len ≤ 2 ^ 31 - 1 := of_decide_eq_true h
      omega
    have hbit : (encodeDescriptor (.present len)).getLsbD 31 = true := by
      simp [encodeDescriptor]
    have hlow : (encodeDescriptor (.present len)).extractLsb' 0 31 = BitVec.ofNat 31 len := by
      ext i hi
      simp only [encodeDescriptor, BitVec.getElem_extractLsb', BitVec.getLsbD_or, BitVec.getLsbD_shiftLeft,
        BitVec.getLsbD_setWidth, Nat.zero_add]
      simp [hi, show i < 32 by omega]
    rw [decodeDescriptor, if_pos hbit, hlow, BitVec.toNat_ofNat, Nat.mod_eq_of_lt hlen]

/-- Every length a descriptor spells fits its 31 bits. -/
theorem decodeDescriptor_wellFormed (d : Word) : (decodeDescriptor d).wellFormed = true := by
  simp only [decodeDescriptor]
  split
  · refine decide_eq_true (?_ : _ ≤ 2 ^ 31 - 1)
    have := (d.extractLsb' 0 31).isLt
    omega
  · rfl

end Sys2Proof
end

