-- ==== Sys2Proof/Laws/PerInstr.lean ====
section
/-! SUPPORT. Statements about every operation as it is spelled, one lemma per constructor: the opcode stands in
`CW[99:96]` of its word and is not a reserved one (`30_encoding.md` R69, R70, R72). -/

namespace Sys2Proof.Laws.OpcodeField

/-- The word of the operation carries its opcode, one of the eleven of the table. -/
def Statement (i : Instr) : Prop := opField (encode i) = opcode i ∧ (opcode i).toNat ≤ 0xA

theorem createDefault : Statement .createDefault := ⟨opField_commandWord .., by decide⟩
theorem create (r g b : Word) : Statement (.create r g b) := ⟨opField_commandWord .., by simp [opcode]⟩
theorem createFromPacked (v : Word) : Statement (.createFromPacked v) := ⟨opField_commandWord .., by simp [opcode]⟩
theorem toPacked : Statement .toPacked := ⟨opField_commandWord .., by decide⟩
theorem getRed : Statement .getRed := ⟨opField_commandWord .., by decide⟩
theorem getGreen : Statement .getGreen := ⟨opField_commandWord .., by decide⟩
theorem getBlue : Statement .getBlue := ⟨opField_commandWord .., by decide⟩
theorem setRed (v : Word) : Statement (.setRed v) := ⟨opField_commandWord .., by simp [opcode]⟩
theorem setGreen (v : Word) : Statement (.setGreen v) := ⟨opField_commandWord .., by simp [opcode]⟩
theorem setBlue (v : Word) : Statement (.setBlue v) := ⟨opField_commandWord .., by simp [opcode]⟩
theorem encode (z o : Descriptor) : Statement (.encode z o) := ⟨opField_commandWord .., by simp [opcode]⟩

end Sys2Proof.Laws.OpcodeField
end

