-- ==== Sys2Proof/Laws/Step.lean ====
section
/-! SUPPORT. What a step can do, said once: what the decoder rejects, what every operation leaves alone, and the cases of a
step. -/

namespace Sys2Proof

/-- The decoder rejects exactly the reserved opcodes (`30_encoding.md` R72). -/
theorem decode_cases (w : CommandWord) :
    (∃ i, decode w = .ok i ∧ (opField w).toNat ≤ 0xA) ∨
      (decode w = .error (.reservedOpcode (opField w)) ∧ 0xB ≤ (opField w).toNat) := by
  have hlt := (opField w).isLt
  unfold decode
  generalize (opField w).toNat = n at hlt ⊢
  interval_cases n <;> first | exact .inl ⟨_, rfl, by decide⟩ | exact .inr ⟨rfl, by decide⟩

namespace Machine

/-- Every operation completes, delivers one result, and leaves the byte spaces and the inputs still to come alone. -/
theorem exec_delivers (i : Instr) (s : State) :
    ∃ t r, exec i s = .next t ∧ t.zp = s.zp ∧ t.op = s.op ∧ t.inputs = s.inputs ∧ t.returned = s.returned ++ [r] := by
  cases i <;> exact ⟨_, _, rfl, rfl, rfl, rfl, rfl⟩

/-- A step that answers a next state idled, applied reset, or ran a decoded operation. -/
theorem step_cases {s t : State} (h : step s = .next t) :
    (s.inputs = [] ∧ t = s) ∨
      (∃ rest, s.inputs = .reset :: rest ∧ t = State.applyReset { s with inputs := rest }) ∨
      (∃ w zp op rest i, s.inputs = .command w zp op :: rest ∧ decode w = .ok i ∧
        exec i (s.accept zp op rest) = .next t) := by
  rcases hin : s.inputs with _ | ⟨_ | _, rest⟩
  · simp only [step, fetch, hin] at h
    exact .inl ⟨rfl, (Host.Outcome.next.inj h).symm⟩
  · rename_i w zp op
    rcases hd : decode w with e | i
    · simp [step, fetch, hin, hd] at h
    · simp only [step, fetch, hin, hd] at h
      exact .inr (.inr ⟨w, zp, op, rest, i, rfl, hd, h⟩)
  · simp only [step, fetch, hin] at h
    exact .inr (.inl ⟨rest, rfl, (Host.Outcome.next.inj h).symm⟩)

/-- A step that refuses found a reserved opcode at the command port. -/
theorem step_refused {s : State} {why : Refusal} (h : step s = .refused why) :
    ∃ w zp op rest, s.inputs = .command w zp op :: rest ∧ 0xB ≤ (opField w).toNat ∧
      why = .reservedOpcode (opField w) := by
  rcases hin : s.inputs with _ | ⟨_ | _, rest⟩
  · simp [step, fetch, hin] at h
  · rename_i w zp op
    rcases decode_cases w with ⟨i, hd, -⟩ | ⟨hd, hop⟩
    · obtain ⟨t, r, hx, -⟩ := exec_delivers i (s.accept zp op rest)
      simp [step, fetch, hin, hd, hx] at h
    · simp only [step, fetch, hin, hd, refusalOf, Host.Outcome.refused.injEq] at h
      exact ⟨w, zp, op, rest, rfl, hop, h.symm⟩
  · simp [step, fetch, hin] at h

end Machine

end Sys2Proof
end

