-- ==== Sys2Proof/Laws/Run.lean ====
section
/-! SUPPORT. A run of the machine behind the host's interface, unrolled one step at a time. -/

namespace Sys2Proof.Machine

theorem run_zero (s : State) : core.run 0 s = .next s := rfl

theorem run_succ_of_next {s t : State} (h : step s = .next t) (k : Nat) : core.run (k + 1) s = core.run k t := by
  have hs : core.step s = .next t := h
  simp only [Host.Core.run, hs]

theorem run_succ_of_refused {s : State} {why : Refusal} (h : step s = .refused why) (k : Nat) :
    core.run (k + 1) s = .refused why := by
  have hs : core.step s = .refused why := h
  simp only [Host.Core.run, hs]

end Sys2Proof.Machine
end

