-- ==== Sys2Proof/Machine/System.lean ====
section
/-! DEFINITION. Several blocks: the product of independent copies (`10_state.md` R23, R24; `20_memory.md` R44). -/

namespace Sys2Proof.Machine

/-- Instance `k` of the system takes one step; the others are not touched. There is no instance beyond the list's end,
and naming one changes nothing. -/
def systemStep (blocks : List State) (k : Nat) : Host.Outcome (List State) Fault Refusal :=
  match blocks[k]? with
  | none => .next blocks
  | some s =>
    match step s with
    | .next t => .next (blocks.set k t)
    | .fault why => .fault why
    | .refused why => .refused why

end Sys2Proof.Machine
end

