-- ==== Sys2Proof/Safety.lean ====
section
/-! DEFINITION. What the statements call a good state and a safe run: byte spaces in canonical form, results of the form
the spec gives them, and no reserved opcode issued. -/

namespace Sys2Proof.Machine

/-- The form of a result: `RES` has zero in bits 31:24 (`30_encoding.md` R60, R78), and a buffer is 24 blocks of one
length, or empty (`20_memory.md` R32). -/
def Result.wellFormed : Result → Prop
  | .nothing => True
  | .word res => res.toNat ≤ 0x00FFFFFF
  | .buffer out => 24 ∣ out.length

/-- The byte spaces an input carries are in canonical form. -/
def Input.wellFormed : Input → Prop
  | .reset => True
  | .command _ zp op => Memory.wf zp ∧ Memory.wf op

/-- The invariant of the machine: every byte space in canonical form, every result returned so far of the form the spec
gives results. -/
structure State.Inv (s : State) : Prop where
  zpWf : Memory.wf s.zp
  opWf : Memory.wf s.op
  inputsWf : ∀ i ∈ s.inputs, Input.wellFormed i
  returnedWf : ∀ r ∈ s.returned, Result.wellFormed r

/-- The caller's input is a reset, or a command word whose opcode is not reserved (`30_encoding.md` R72). -/
def Input.legal : Input → Prop
  | .reset => True
  | .command w _ _ => (opField w).toNat ≤ 0xA

/-- No reserved opcode is among the inputs still to come. -/
def State.Safe (s : State) : Prop := ∀ i ∈ s.inputs, Input.legal i

end Sys2Proof.Machine
end

