-- ==== Sys2Proof/Certificates/Slice0/Obligations.lean ====
section
/-! DEFINITION. The statements for the provers, from the numbered rules of spec/, family by family: the encoding, the ten
Pixel operations, ENCODE, the step and the order of operations, the machine as a whole. Rules the spec marks as its own
decision or derivation are named so in the docstring, and the statement's basis is then 'derived'. -/

open Sys2Proof Sys2Proof.Machine

/-! ### The encoding -/

/-- Decode and encode agree on every operation a command word can spell, at every operand value. The word layout and the
opcodes are the spec's own decision D4, the descriptor its decision D6. -/
def Obligations.DecodeEncodeRoundTrip : Prop :=
  ∀ i : Instr, WellFormed i → decode (encode i) = .ok i

/-- Every operation the decoder reads is one a command word can spell, and the assembler's word for it is read as the
same operation: ignored bits are all that a word can lose (decisions D4, D12). -/
def Obligations.DecodedOperationsAreWellFormed : Prop :=
  ∀ (w : CommandWord) (i : Instr), decode w = .ok i → WellFormed i ∧ decode (encode i) = .ok i

/-- The opcode table: what each of the eleven opcodes decodes to, with the operand fields it uses, whatever the others
hold; and bit 31 and bits 30:0 of a descriptor (decisions D3, D4, D6). -/
def Obligations.OpcodeTableDecodes : Prop :=
  ∀ a b c : Word,
    decode (commandWord 0x0#4 a b c) = .ok .createDefault ∧
    decode (commandWord 0x1#4 a b c) = .ok (.create a b c) ∧
    decode (commandWord 0x2#4 a b c) = .ok (.createFromPacked a) ∧
    decode (commandWord 0x3#4 a b c) = .ok .toPacked ∧
    decode (commandWord 0x4#4 a b c) = .ok .getRed ∧
    decode (commandWord 0x5#4 a b c) = .ok .getGreen ∧
    decode (commandWord 0x6#4 a b c) = .ok .getBlue ∧
    decode (commandWord 0x7#4 a b c) = .ok (.setRed a) ∧
    decode (commandWord 0x8#4 a b c) = .ok (.setGreen a) ∧
    decode (commandWord 0x9#4 a b c) = .ok (.setBlue a) ∧
    ∃ z o : Descriptor,
      decode (commandWord 0xA#4 a b c) = .ok (.encode z o) ∧
      z = (if 2 ^ 31 ≤ a.toNat then .present (a.toNat - 2 ^ 31) else .absent) ∧
      o = (if 2 ^ 31 ≤ b.toNat then .present (b.toNat - 2 ^ 31) else .absent)

/-- Bits an operation ignores have no effect on it: operand fields, bits 31:8 of a channel operand, bits 31:24 of a
packed operand, the length field of an absent descriptor; the assembler writes zero in an ignored field
(decision D12). -/
def Obligations.IgnoredBitsHaveNoEffect : Prop :=
  (∀ (op : BitVec 4) (a b c a' b' c' : Word), op ∈ [0x0#4, 0x3#4, 0x4#4, 0x5#4, 0x6#4] →
    decode (commandWord op a b c) = decode (commandWord op a' b' c')) ∧
  (∀ (op : BitVec 4) (a b c b' c' : Word), op ∈ [0x2#4, 0x7#4, 0x8#4, 0x9#4] →
    decode (commandWord op a b c) = decode (commandWord op a b' c')) ∧
  (∀ a b c c' : Word, decode (commandWord 0xA#4 a b c) = decode (commandWord 0xA#4 a b c')) ∧
  (∀ a a' b c : Word, a.getLsbD 31 = false → a'.getLsbD 31 = false →
    decode (commandWord 0xA#4 a b c) = decode (commandWord 0xA#4 a' b c)) ∧
  (∀ a b b' c : Word, b.getLsbD 31 = false → b'.getLsbD 31 = false →
    decode (commandWord 0xA#4 a b c) = decode (commandWord 0xA#4 a b' c)) ∧
  (∀ (r g b r' g' b' : Word) (s : State), r.toNat % 256 = r'.toNat % 256 → g.toNat % 256 = g'.toNat % 256 →
    b.toNat % 256 = b'.toNat % 256 → exec (.create r g b) s = exec (.create r' g' b') s) ∧
  (∀ (v v' : Word) (s : State), v.toNat % 256 = v'.toNat % 256 →
    exec (.setRed v) s = exec (.setRed v') s ∧ exec (.setGreen v) s = exec (.setGreen v') s ∧
    exec (.setBlue v) s = exec (.setBlue v') s) ∧
  (∀ (v v' : Word) (s : State), v.toNat % 2 ^ 24 = v'.toNat % 2 ^ 24 →
    exec (.createFromPacked v) s = exec (.createFromPacked v') s) ∧
  (∀ z o : Descriptor, cField (encode (.encode z o)) = 0) ∧
  (∀ d : Descriptor, bField (encode (.encode d .absent)) = 0 ∧ aField (encode (.encode .absent d)) = 0) ∧
  (∀ v : Word, cField (encode (.setRed v)) = 0 ∧ bField (encode (.setRed v)) = 0 ∧
    cField (encode (.setGreen v)) = 0 ∧ bField (encode (.setGreen v)) = 0 ∧
    cField (encode (.setBlue v)) = 0 ∧ bField (encode (.setBlue v)) = 0 ∧
    cField (encode (.createFromPacked v)) = 0 ∧ bField (encode (.createFromPacked v)) = 0) ∧
  (∀ i ∈ [Instr.createDefault, Instr.toPacked, Instr.getRed, Instr.getGreen, Instr.getBlue],
    aField (encode i) = 0 ∧ bField (encode i) = 0 ∧ cField (encode i) = 0)

/-- A reserved opcode is refused at the decoder, by name, whatever the operand fields hold, and exactly the opcodes 0xB
to 0xF are refused: no other command is, so the refusal is the block's only non-operation outcome (decision D11). -/
def Obligations.ReservedOpcodesRefused : Prop :=
  ∀ (s : State) (w : CommandWord) (zp op : Memory) (rest : List Input), s.inputs = .command w zp op :: rest →
    (0xB ≤ (opField w).toNat →
      decode w = .error (.reservedOpcode (opField w)) ∧ step s = .refused (.reservedOpcode (opField w))) ∧
    ((opField w).toNat ≤ 0xA → ∃ t, step s = .next t)

/-- Command words of the spec's worked encodings (`30_encoding.md` section 8) and of its vectors V37, V39, V44 to V47
(`95_test_vectors.md`), read as the operations they stand for. A sanity statement on fixed words. -/
def Obligations.WorkedEncodingsDecode : Prop :=
  decode 0x1_00000000_000000FF_00000001#100 = .ok (.create 0x00#32 0xFF#32 0x01#32) ∧
  decode 0x2_FF123456_00000000_00000000#100 = .ok (.createFromPacked 0xFF123456#32) ∧
  decode 0x9_00000101_00000000_00000000#100 = .ok (.setBlue 0x101#32) ∧
  decode 0xA_80000002_80000001_00000000#100 = .ok (.encode (.present 2) (.present 1)) ∧
  decode 0xA_00000005_80000001_00000000#100 = .ok (.encode .absent (.present 1)) ∧
  decode 0x0_DEADBEEF_12345678_FFFFFFFF#100 = .ok .createDefault ∧
  decode 0x3_FFFFFFFF_FFFFFFFF_FFFFFFFF#100 = .ok .toPacked ∧
  decode 0xB_00000000_00000000_00000000#100 = .error (.reservedOpcode 0xB#4) ∧
  decode 0xF_00000000_00000000_00000000#100 = .error (.reservedOpcode 0xF#4)

/-- The pseudo-operations have the command words of the operations they name (decision D23). -/
def Obligations.PseudoOperationsShareWords : Prop :=
  ∀ v : Word,
    encode (pseudoSetPacked v) = encode (.createFromPacked v) ∧
    encode (pseudoDecompose v) = encode (.createFromPacked v) ∧
    encode pseudoGetPacked = encode .toPacked ∧
    encode pseudoCompose = encode .toPacked

/-- A pattern operand, absent or a byte sequence, is what its descriptor and its byte space spell (decision D6); the
byte space is in canonical form. -/
def Obligations.PatternOperandsAreSpelled : Prop :=
  ∀ p : Pattern, patternOf (Pattern.descriptor p) (Pattern.space p) = p ∧ Memory.wf (Pattern.space p)

/-! ### The ten Pixel operations -/

/-- `40_pixel_ops.md` R90, CREATE_DEFAULT: opcode 0x0, all three channels zero, nothing returned, the previous values of
no account, twice the same as once, and the Pixel that of reset. -/
def Obligations.CreateDefaultClearsPixel : Prop :=
  (∀ a b c : Word, decode (commandWord 0x0#4 a b c) = .ok .createDefault) ∧
  (∀ s : State, exec .createDefault s =
    .next { s with red := 0x00#8, green := 0x00#8, blue := 0x00#8, returned := s.returned ++ [.nothing] }) ∧
  (∀ s t u : State, exec .createDefault s = .next t → exec .createDefault t = .next u → u.pixel = t.pixel) ∧
  (∀ s t : State, exec .createDefault s = .next t → t.pixel = State.reset.pixel)

/-- `40_pixel_ops.md` R91, CREATE: opcode 0x1, each channel the low 8 bits of its operand, operands in 0 to 255 stored
exactly, nothing else changed and nothing recorded. -/
def Obligations.CreateLoadsLowBytes : Prop :=
  (∀ a b c : Word, decode (commandWord 0x1#4 a b c) = .ok (.create a b c)) ∧
  (∀ (a b c : Word) (s : State), exec (.create a b c) s =
    .next { s with
      red := a.extractLsb' 0 8
      green := b.extractLsb' 0 8
      blue := c.extractLsb' 0 8
      returned := s.returned ++ [.nothing] }) ∧
  (∀ (a b c : Word) (s t : State), exec (.create a b c) s = .next t →
    t.red.toNat = a.toNat % 256 ∧ t.green.toNat = b.toNat % 256 ∧ t.blue.toNat = c.toNat % 256)

/-- `40_pixel_ops.md` R92, CREATE_FROM_PACKED: opcode 0x2, blue, green and red from bytes 0, 1 and 2 of the operand by
shift-then-mask, the alpha byte read by nothing, and the contract with TO_PACKED. -/
def Obligations.CreateFromPackedSplitsValue : Prop :=
  (∀ a b c : Word, decode (commandWord 0x2#4 a b c) = .ok (.createFromPacked a)) ∧
  (∀ (v : Word) (s : State), exec (.createFromPacked v) s =
    .next { s with
      red := v.extractLsb' 16 8
      green := v.extractLsb' 8 8
      blue := v.extractLsb' 0 8
      returned := s.returned ++ [.nothing] }) ∧
  (∀ (v : Word) (s t : State), exec (.createFromPacked v) s = .next t →
    t.green.setWidth 32 = (v >>> 8) &&& 0xFF#32 ∧ t.red.setWidth 32 = (v >>> 16) &&& 0xFF#32 ∧
    t.blue.setWidth 32 = v &&& 0xFF#32) ∧
  (∀ (v : Word) (s : State), exec (.createFromPacked v) s = exec (.createFromPacked (v &&& 0x00FFFFFF#32)) s) ∧
  (∀ (v : Word) (s t : State), exec (.createFromPacked v) s = .next t →
    exec .toPacked t = .next (t.deliver (.word (v &&& 0x00FFFFFF#32))))

/-- `40_pixel_ops.md` R93, TO_PACKED: opcode 0x3, RES is `0x00 || RED || GREEN || BLUE`, at most 0x00FFFFFF, the OR
being the sum, and no register changes. -/
def Obligations.ToPackedComposesChannels : Prop :=
  (∀ a b c : Word, decode (commandWord 0x3#4 a b c) = .ok .toPacked) ∧
  (∀ s : State, ∃ res : Word,
    exec .toPacked s = .next { s with returned := s.returned ++ [.word res] } ∧
    res = (s.red.setWidth 32 <<< 16) ||| (s.green.setWidth 32 <<< 8) ||| s.blue.setWidth 32 ∧
    res.extractLsb' 24 8 = 0x00#8 ∧ res.extractLsb' 16 8 = s.red ∧
    res.extractLsb' 8 8 = s.green ∧ res.extractLsb' 0 8 = s.blue ∧
    res.toNat = s.red.toNat * 65536 + s.green.toNat * 256 + s.blue.toNat ∧
    res.toNat ≤ 0x00FFFFFF)

/-- `40_pixel_ops.md` R94, R95, R96, the accessors: opcodes 0x4, 0x5, 0x6, RES[7:0] the channel and RES[31:8] zero, and
no register changes. -/
def Obligations.AccessorsReturnChannels : Prop :=
  (∀ a b c : Word, decode (commandWord 0x4#4 a b c) = .ok .getRed ∧
    decode (commandWord 0x5#4 a b c) = .ok .getGreen ∧ decode (commandWord 0x6#4 a b c) = .ok .getBlue) ∧
  (∀ s : State, ∃ res : Word, exec .getRed s = .next { s with returned := s.returned ++ [.word res] } ∧
    res.extractLsb' 0 8 = s.red ∧ res.extractLsb' 8 24 = 0x000000#24) ∧
  (∀ s : State, ∃ res : Word, exec .getGreen s = .next { s with returned := s.returned ++ [.word res] } ∧
    res.extractLsb' 0 8 = s.green ∧ res.extractLsb' 8 24 = 0x000000#24) ∧
  (∀ s : State, ∃ res : Word, exec .getBlue s = .next { s with returned := s.returned ++ [.word res] } ∧
    res.extractLsb' 0 8 = s.blue ∧ res.extractLsb' 8 24 = 0x000000#24)

/-- `40_pixel_ops.md` R97, R98, R99, the mutators: opcodes 0x7, 0x8, 0x9, one channel gets the low 8 bits of the operand,
the other two keep their values, and writing the value already held changes no channel. -/
def Obligations.MutatorsWriteOneChannel : Prop :=
  (∀ a b c : Word, decode (commandWord 0x7#4 a b c) = .ok (.setRed a) ∧
    decode (commandWord 0x8#4 a b c) = .ok (.setGreen a) ∧ decode (commandWord 0x9#4 a b c) = .ok (.setBlue a)) ∧
  (∀ (v : Word) (s : State), exec (.setRed v) s =
    .next { s with red := v.extractLsb' 0 8, returned := s.returned ++ [.nothing] }) ∧
  (∀ (v : Word) (s : State), exec (.setGreen v) s =
    .next { s with green := v.extractLsb' 0 8, returned := s.returned ++ [.nothing] }) ∧
  (∀ (v : Word) (s : State), exec (.setBlue v) s =
    .next { s with blue := v.extractLsb' 0 8, returned := s.returned ++ [.nothing] }) ∧
  (∀ (v : Word) (s t : State),
    (v.toNat % 256 = s.red.toNat → exec (.setRed v) s = .next t → t.pixel = s.pixel) ∧
    (v.toNat % 256 = s.green.toNat → exec (.setGreen v) s = .next t → t.pixel = s.pixel) ∧
    (v.toNat % 256 = s.blue.toNat → exec (.setBlue v) s = .next t → t.pixel = s.pixel))

/-- `40_pixel_ops.md` R100, the round-trip law in both directions. -/
def Obligations.PackedRoundTrip : Prop :=
  (∀ (v : Word) (s : State), ∃ t, exec (.createFromPacked v) s = .next t ∧
    exec .toPacked t = .next (t.deliver (.word (v &&& 0x00FFFFFF#32)))) ∧
  (∀ (v : Word) (s : State), v.toNat ≤ 0xFFFFFF → ∃ t, exec (.createFromPacked v) s = .next t ∧
    exec .toPacked t = .next (t.deliver (.word v))) ∧
  (∀ s : State, ∃ (t u : State) (res : Word), exec .toPacked s = .next t ∧
    t.returned = s.returned ++ [.word res] ∧ exec (.createFromPacked res) t = .next u ∧ u.pixel = s.pixel)

/-- `40_pixel_ops.md` R101, the channel-independence law: what CREATE stored is what each GET returns, and after a SET of
one channel the GET of each other channel returns what it returned before. -/
def Obligations.ChannelsAreIndependent : Prop :=
  (∀ (r g b : Byte) (s : State), ∃ t, exec (.create (r.setWidth 32) (g.setWidth 32) (b.setWidth 32)) s = .next t ∧
    exec .getRed t = .next (t.deliver (.word (r.setWidth 32))) ∧
    exec .getGreen t = .next (t.deliver (.word (g.setWidth 32))) ∧
    exec .getBlue t = .next (t.deliver (.word (b.setWidth 32)))) ∧
  (∀ (v : Word) (s : State), ∃ t, exec (.setRed v) s = .next t ∧ ∃ g b : Word,
    exec .getGreen s = .next (s.deliver (.word g)) ∧ exec .getGreen t = .next (t.deliver (.word g)) ∧
    exec .getBlue s = .next (s.deliver (.word b)) ∧ exec .getBlue t = .next (t.deliver (.word b))) ∧
  (∀ (v : Word) (s : State), ∃ t, exec (.setGreen v) s = .next t ∧ ∃ r b : Word,
    exec .getRed s = .next (s.deliver (.word r)) ∧ exec .getRed t = .next (t.deliver (.word r)) ∧
    exec .getBlue s = .next (s.deliver (.word b)) ∧ exec .getBlue t = .next (t.deliver (.word b))) ∧
  (∀ (v : Word) (s : State), ∃ t, exec (.setBlue v) s = .next t ∧ ∃ r g : Word,
    exec .getRed s = .next (s.deliver (.word r)) ∧ exec .getRed t = .next (t.deliver (.word r)) ∧
    exec .getGreen s = .next (s.deliver (.word g)) ∧ exec .getGreen t = .next (t.deliver (.word g)))

/-- `40_pixel_ops.md` R102: none of the ten operations has an error condition, at any operand, in any state. -/
def Obligations.PixelOperationsNeverFail : Prop :=
  ∀ (i : Instr) (s : State), (∀ z o : Descriptor, i ≠ .encode z o) → ∃ t, exec i s = .next t

/-- The frame of the ten operations (`40_pixel_ops.md` R103): no side effect beyond the listed registers, and the four
reading operations change no register and give the same result again. That every one of the ten, the CREATE and SET
operations too, adds exactly one entry to the returned results is the model's choice (log entry 3). -/
def Obligations.PixelOperationsFrame : Prop :=
  (∀ (i : Instr) (s t : State), (∀ z o : Descriptor, i ≠ .encode z o) → exec i s = .next t →
    t.zp = s.zp ∧ t.op = s.op ∧ t.inputs = s.inputs ∧ (∃ r, t.returned = s.returned ++ [r]) ∧
    ∀ a : Nat, Memory.read t.zp a = Memory.read s.zp a ∧ Memory.read t.op a = Memory.read s.op a) ∧
  (∀ (v : Word) (s t : State), exec (.setRed v) s = .next t → t.green = s.green ∧ t.blue = s.blue) ∧
  (∀ (v : Word) (s t : State), exec (.setGreen v) s = .next t → t.red = s.red ∧ t.blue = s.blue) ∧
  (∀ (v : Word) (s t : State), exec (.setBlue v) s = .next t → t.red = s.red ∧ t.green = s.green) ∧
  (∀ (i : Instr) (s t u : State), i ∈ [Instr.toPacked, Instr.getRed, Instr.getGreen, Instr.getBlue] →
    exec i s = .next t → exec i t = .next u →
    t.red = s.red ∧ t.green = s.green ∧ t.blue = s.blue ∧
    ∃ r, t.returned = s.returned ++ [r] ∧ u.returned = s.returned ++ [r, r])

/-- `40_pixel_ops.md` R104: narrowing is `v mod 256`, idempotent, the identity on 0 to 255. -/
def Obligations.NarrowingWraps : Prop :=
  ∀ v : Word, (trunc8 v).toNat = v.toNat % 256 ∧ trunc8 (zext32 (trunc8 v)) = trunc8 v ∧
    (v.toNat ≤ 255 → zext32 (trunc8 v) = v)

/-- `40_pixel_ops.md` R105: extraction shifts first and masks second, so that each byte of the packed value comes out
whole. -/
def Obligations.ExtractionShiftsThenMasks : Prop :=
  ∀ v : Word,
    zext32 (packedBlue v) = v &&& 0xFF#32 ∧ (packedBlue v).toNat = v.toNat % 256 ∧
    zext32 (packedGreen v) = (v >>> 8) &&& 0xFF#32 ∧ (packedGreen v).toNat = v.toNat / 256 % 256 ∧
    zext32 (packedRed v) = (v >>> 16) &&& 0xFF#32 ∧ (packedRed v).toNat = v.toNat / 65536 % 256 ∧
    compose (packedRed v) (packedGreen v) (packedBlue v) = v &&& 0x00FFFFFF#32

/-- The fields of a composed packed value are disjoint: `|` and `+` agree and nothing overflows (R106, which the spec
marks as derived from R93 and R60). -/
def Obligations.CompositionFieldsAreDisjoint : Prop :=
  ∀ r g b : Byte,
    compose r g b = (zext32 r <<< 16) + (zext32 g <<< 8) + zext32 b ∧
    (compose r g b).toNat = r.toNat * 65536 + g.toNat * 256 + b.toNat ∧ (compose r g b).toNat ≤ 0x00FFFFFF

/-- Which operations may change which register, over all operations: the "written by" column (R13, which the spec marks
as derived; the table of `10_state.md` section 1). -/
def Obligations.RegistersWrittenOnlyByListed : Prop :=
  ∀ (i : Instr) (s t : State), exec i s = .next t →
    (t.red ≠ s.red → i = .createDefault ∨ (∃ r g b, i = .create r g b) ∨ (∃ v, i = .createFromPacked v) ∨
      ∃ v, i = .setRed v) ∧
    (t.green ≠ s.green → i = .createDefault ∨ (∃ r g b, i = .create r g b) ∨ (∃ v, i = .createFromPacked v) ∨
      ∃ v, i = .setGreen v) ∧
    (t.blue ≠ s.blue → i = .createDefault ∨ (∃ r g b, i = .create r g b) ∨ (∃ v, i = .createFromPacked v) ∨
      ∃ v, i = .setBlue v)

/-! ### ENCODE -/

/-- `41_encode.md` R121, R122 and `30_encoding.md` R68: the five conditions of a valid ENCODE; when any one fails the buffer is empty and nothing
else happens; when all hold it is not. The patterns' bytes and the registers play no part. -/
def Obligations.DegenerateEncodeIsEmpty : Prop :=
  ∀ (z o : Descriptor) (s : State), ∃ out : List Byte,
    exec (.encode z o) s = .next { s with returned := s.returned ++ [.buffer out] } ∧
    (out = [] ↔ ¬ (z ≠ .absent ∧ o ≠ .absent ∧ (∀ m, z = .present m → 1 ≤ m) ∧ (∀ m, o = .present m → 1 ≤ m) ∧
      z = o))

/-- `41_encode.md` R123 and `20_memory.md` R32: exactly `24 * L` bytes when valid, zero when degenerate, no third length. -/
def Obligations.EncodedLength : Prop :=
  (∀ (len : Nat) (s : State), 1 ≤ len → ∃ out : List Byte,
    exec (.encode (.present len) (.present len)) s = .next { s with returned := s.returned ++ [.buffer out] } ∧
    out.length = 24 * len ∧ 24 ≤ out.length) ∧
  (∀ (z o : Descriptor) (s : State), ∃ out : List Byte,
    exec (.encode z o) s = .next { s with returned := s.returned ++ [.buffer out] } ∧
    (out.length = 0 ∨ ∃ len, 1 ≤ len ∧ z = .present len ∧ o = .present len ∧ out.length = 24 * len))

/-- `30_encoding.md` R65, R66: the buffer of a valid ENCODE is `P(b_0) ++ ... ++ P(b_23)`, and byte `j` of block `k`
is `P(b_k)[j]`. -/
def Obligations.EncodeConcatenatesSymbols : Prop :=
  ∀ (len : Nat) (s : State), 1 ≤ len → ∃ out : List Byte,
    exec (.encode (.present len) (.present len)) s = .next { s with returned := s.returned ++ [.buffer out] } ∧
    out = s.pixel.serialFrame.flatMap
      (fun bit => if bit then Memory.bytes s.op len else Memory.bytes s.zp len) ∧
    out.length = 24 * len ∧
    ∀ k j : Nat, k < 24 → j < len →
      out[k * len + j]? = some (Memory.read (if s.pixel.serialBit k then s.op else s.zp) j)

/-- The closed form of the output (R67, which the spec marks as derived): the machine's 24 copies at an advancing write
position, with the write laws of a byte space under them, give `OUT[n] = P(b_(n div L))[n mod L]` at every offset, and
there is no offset beyond `24 * L`. -/
def Obligations.EncodeClosedForm : Prop :=
  ∀ (len : Nat) (s : State), 1 ≤ len → ∃ out : List Byte,
    exec (.encode (.present len) (.present len)) s = .next { s with returned := s.returned ++ [.buffer out] } ∧
    ∀ n : Nat, out[n]? =
      if n < 24 * len then
        some (Memory.read (if s.pixel.frameWord.getLsbD (23 - n / len) then s.op else s.zp) (n % len))
      else none

/-- `30_encoding.md` R62, R63 and `41_encode.md` R124, R125, R127: the eight blocks of green, then of red, then of blue,
each most significant bit first, each the whole selected pattern byte for byte. -/
def Obligations.EncodeWireOrder : Prop :=
  ∀ (len : Nat) (s : State), 1 ≤ len → ∃ out : List Byte,
    exec (.encode (.present len) (.present len)) s = .next { s with returned := s.returned ++ [.buffer out] } ∧
    out.length = 24 * len ∧
    ∀ m j : Nat, m < 8 → j < len →
      out[m * len + j]? = some (Memory.read (if s.green.getLsbD (7 - m) then s.op else s.zp) j) ∧
      out[(8 + m) * len + j]? = some (Memory.read (if s.red.getLsbD (7 - m) then s.op else s.zp) j) ∧
      out[(16 + m) * len + j]? = some (Memory.read (if s.blue.getLsbD (7 - m) then s.op else s.zp) j)

/-- The serial frame is the frame word `GREEN || RED || BLUE` from its top bit down (R64, which the spec marks as
derived from R62 and R63). -/
def Obligations.SerialFrameIsFrameWord : Prop :=
  (∀ (p : Pixel) (k : Nat), k < 24 → p.serialBit k = p.frameWord.getLsbD (23 - k)) ∧
  (∀ p : Pixel, p.frameWord.toNat = p.green.toNat * 65536 + p.red.toNat * 256 + p.blue.toNat)

/-- `41_encode.md` R126: the machine's bit test counts bit `n` as set when masking leaves something, that is when
`ch[n] = 1`, and the other seven bits of the channel have no influence on the block written for it: two states whose Pixels agree in serial bit
`k` write the same block `k`. -/
def Obligations.BlockDependsOnOneBit : Prop :=
  (∀ (ch : Byte) (n : Nat), n < 8 →
    (bitSet ch n = true ↔ ch.getLsbD n = true) ∧ (bitSet ch n = true ↔ ch &&& (0x01#8 <<< n) ≠ 0x00#8)) ∧
  (∀ (len k j : Nat) (s s' t t' : State) (out out' : List Byte), k < 24 → j < len →
    s.zp = s'.zp → s.op = s'.op → s.pixel.serialBit k = s'.pixel.serialBit k →
    exec (.encode (.present len) (.present len)) s = .next t → t.returned = s.returned ++ [.buffer out] →
    exec (.encode (.present len) (.present len)) s' = .next t' → t'.returned = s'.returned ++ [.buffer out'] →
    out[k * len + j]? = out'[k * len + j]?)

/-- `41_encode.md` R128: before the copy for serial bit `k` the write position is `k * L`, and after the last copy it is
`24 * L`, where the machine's loops end. -/
def Obligations.WritePositionAdvances : Prop :=
  ∀ (s : State) (len : Nat),
    (∀ k : Nat, k ≤ 24 →
      (((wireOrder.flatMap (fun ch => bitOrder.map (fun n => (s.x ch, n)))).take k).foldl
        (fun c bit => expandBit s.zp s.op len bit.1 c bit.2) { wp := 0, out := [] }).wp = k * len) ∧
    (wireOrder.flatMap (fun ch => bitOrder.map (fun n => (s.x ch, n)))).foldl
        (fun c bit => expandBit s.zp s.op len bit.1 c bit.2) { wp := 0, out := [] } = expandPixel s len ∧
    (expandPixel s len).wp = 24 * len

/-- The machine's ENCODE, run as R129's loops over byte spaces, returns the transform of the spec's abstract level, for
every pair of descriptors, valid or degenerate, in every state (R66, R121, R122, R129). -/
def Obligations.EncodeRefinesTransform : Prop :=
  ∀ (z o : Descriptor) (s : State),
    exec (.encode z o) s =
      .next (s.deliver (.buffer (transform s.pixel (patternOf z s.zp) (patternOf o s.op))))

/-- `41_encode.md` R131, R132, the frame of ENCODE: the Pixel, every byte of both patterns and the inputs still to come
are what they were; one buffer is returned. -/
def Obligations.EncodeFrame : Prop :=
  ∀ (z o : Descriptor) (s t : State), exec (.encode z o) s = .next t →
    t.red = s.red ∧ t.green = s.green ∧ t.blue = s.blue ∧ t.zp = s.zp ∧ t.op = s.op ∧ t.inputs = s.inputs ∧
    (∀ a : Nat, Memory.read t.zp a = Memory.read s.zp a ∧ Memory.read t.op a = Memory.read s.op a) ∧
    ∃ out : List Byte, t.returned = s.returned ++ [.buffer out]

/-- `41_encode.md` R134: ENCODE is a function of the Pixel and the two patterns, whatever else two states hold. -/
def Obligations.EncodeIsPure : Prop :=
  ∀ (z o z' o' : Descriptor) (s s' : State),
    s.pixel = s'.pixel → patternOf z s.zp = patternOf z' s'.zp → patternOf o s.op = patternOf o' s'.op →
    ∃ out : List Byte,
      exec (.encode z o) s = .next (s.deliver (.buffer out)) ∧
      exec (.encode z' o') s' = .next (s'.deliver (.buffer out))

/-- Corner cases (a) to (d) of R141, which the spec marks as derived from R129: an all-zero Pixel, an all-ones Pixel,
equal patterns, and `L = 1`. -/
def Obligations.EncodeUniformCorners : Prop :=
  (∀ (len : Nat) (s : State), 1 ≤ len → s.pixel = ⟨0x00#8, 0x00#8, 0x00#8⟩ →
    exec (.encode (.present len) (.present len)) s =
      .next (s.deliver (.buffer (List.replicate 24 (Memory.bytes s.zp len)).flatten))) ∧
  (∀ (len : Nat) (s : State), 1 ≤ len → s.pixel = ⟨0xFF#8, 0xFF#8, 0xFF#8⟩ →
    exec (.encode (.present len) (.present len)) s =
      .next (s.deliver (.buffer (List.replicate 24 (Memory.bytes s.op len)).flatten))) ∧
  (∀ (len : Nat) (s : State), 1 ≤ len → Memory.bytes s.zp len = Memory.bytes s.op len →
    exec (.encode (.present len) (.present len)) s =
      .next (s.deliver (.buffer (List.replicate 24 (Memory.bytes s.zp len)).flatten))) ∧
  (∀ s : State, ∃ out : List Byte,
    exec (.encode (.present 1) (.present 1)) s = .next (s.deliver (.buffer out)) ∧ out.length = 24 ∧
    ∀ k : Nat, k < 24 → out[k]? = some (Memory.read (if s.pixel.serialBit k then s.op else s.zp) 0))

/-- Corner case (e) of R141 (derived in the spec): swapping the two pattern operands complements the channels. -/
def Obligations.EncodeSwapComplements : Prop :=
  ∀ (z o : Descriptor) (s : State), ∃ out : List Byte,
    exec (.encode z o) s = .next (s.deliver (.buffer out)) ∧
    ∀ s' : State, s'.red = s.red ^^^ 0xFF#8 → s'.green = s.green ^^^ 0xFF#8 → s'.blue = s.blue ^^^ 0xFF#8 →
      s'.zp = s.op → s'.op = s.zp → exec (.encode o z) s' = .next (s'.deliver (.buffer out))

/-- Corner case (f) of R141 (derived in the spec): for given patterns that differ, two Pixels give the same output if
and only if they are equal; the encoding loses no information. -/
def Obligations.EncodeLosesNoInformation : Prop :=
  ∀ (len : Nat) (s s' : State), 1 ≤ len → s.zp = s'.zp → s.op = s'.op →
    Memory.bytes s.zp len ≠ Memory.bytes s.op len →
    ∃ out out' : List Byte,
      exec (.encode (.present len) (.present len)) s = .next (s.deliver (.buffer out)) ∧
      exec (.encode (.present len) (.present len)) s' = .next (s'.deliver (.buffer out')) ∧
      (out = out' ↔ s.pixel = s'.pixel)

/-- A degenerate ENCODE leaves no trace (R167, which the spec marks as derived): whatever operation follows it ends in
the Pixel and returns the result it would have without it. -/
def Obligations.DegenerateEncodeLeavesNoTrace : Prop :=
  ∀ (z o : Descriptor) (i : Instr) (s t u u' : State),
    exec (.encode z o) s = .next t → t.returned = s.returned ++ [.buffer []] →
    exec i t = .next u → exec i s = .next u' →
    u.pixel = u'.pixel ∧ ∃ r, u.returned = s.returned ++ [.buffer [], r] ∧ u'.returned = s.returned ++ [r]

/-! ### The step, the order of operations, reset -/

/-- A step runs the decoded operation: when the next input is a command word that decodes to `i`, the step is exec of `i`
in the state with that input taken and the two byte spaces those of the moment of issue (the spec's decisions D1, D18; log
entries 1 and 2 for the form of the inputs and the spaces). -/
def Obligations.StepRunsDecodedOperation : Prop :=
  ∀ (s : State) (w : CommandWord) (zp op : Memory) (rest : List Input) (i : Instr),
    s.inputs = .command w zp op :: rest → decode w = .ok i →
    step s = exec i { s with zp := zp, op := op, inputs := rest }

/-- With no input the block waits: it starts nothing and emits nothing (R192, which the spec marks as derived; log
entry 6 for the form of waiting). -/
def Obligations.IdleBlockWaits : Prop :=
  ∀ s : State, s.inputs = [] → step s = .next s

/-- Reset puts the Pixel in the state CREATE_DEFAULT gives, and touches neither the byte spaces nor the results already
returned (the spec's decision D7; log entry 7 for reset as an input). -/
def Obligations.ResetInputClearsPixel : Prop :=
  ∀ (s : State) (rest : List Input), s.inputs = .reset :: rest →
    step s = .next { s with red := 0x00#8, green := 0x00#8, blue := 0x00#8, inputs := rest } ∧
    ∀ t, exec .createDefault s = .next t → t.pixel = ⟨0x00#8, 0x00#8, 0x00#8⟩

/-- What reset leaves: black, the Pixel of CREATE_DEFAULT, nothing pending and no outstanding result (the spec's decision
D7). -/
def Obligations.ResetStateIsBlack : Prop :=
  State.reset.red = 0x00#8 ∧ State.reset.green = 0x00#8 ∧ State.reset.blue = 0x00#8 ∧
  State.reset.inputs = [] ∧ State.reset.returned = [] ∧
  ∀ s t : State, exec .createDefault s = .next t → t.pixel = State.reset.pixel

/-- `20_memory.md` R33: a result once returned is the caller's; no step writes it (what was returned stays, in place) and
none reads it (the step does the same whatever had been returned). Log entry 3 for the form of the returned results. -/
def Obligations.ReturnedResultsAreTheCallers : Prop :=
  ∀ (s t : State), step s = .next t → ∃ new : List Result,
    t.returned = s.returned ++ new ∧
    ∀ before : List Result, step { s with returned := before } = .next { t with returned := before ++ new }

/-- Operations take effect in issue order, one after the other (the spec's decision D1; log entry 1 for the form of the
inputs): a run over the first inputs of a
longer sequence is the run over them alone, and the inputs still to come are untouched and unread. -/
def Obligations.InputsTakeEffectInIssueOrder : Prop :=
  ∀ (first later : List Input) (s t : State),
    core.run first.length { s with inputs := first } = .next t →
    t.inputs = [] ∧
    core.run first.length { s with inputs := first ++ later } = .next { t with inputs := later }

/-- Reading operations commute (decision D19's rule R43): in either order the Pixel is unchanged and each gives the same
result. -/
def Obligations.ReadingOperationsCommute : Prop :=
  ∀ (i j : Instr) (s : State),
    (i ∈ [Instr.toPacked, Instr.getRed, Instr.getGreen, Instr.getBlue] ∨ ∃ z o, i = .encode z o) →
    (j ∈ [Instr.toPacked, Instr.getRed, Instr.getGreen, Instr.getBlue] ∨ ∃ z o, j = .encode z o) →
    ∃ (t t' : State) (ri rj : Result), exec i s = .next t ∧ exec j s = .next t' ∧
      exec j t = .next { s with returned := s.returned ++ [ri, rj] } ∧
      exec i t' = .next { s with returned := s.returned ++ [rj, ri] }

/-! ### The machine as a whole -/

/-- `00_scope.md` R7: every operation completes, in every state and at every operand; nothing faults; and the one
non-operation outcome is the refusal of a reserved opcode. -/
def Obligations.EveryOperationCompletes : Prop :=
  (∀ (i : Instr) (s : State), ∃ t, exec i s = .next t) ∧
  (∀ (s : State) (why : Fault), step s ≠ .fault why) ∧
  (∀ (s : State) (why : Refusal), step s = .refused why →
    ∃ (w : CommandWord) (zp op : Memory) (rest : List Input), s.inputs = .command w zp op :: rest ∧
      0xB ≤ (opField w).toNat ∧ why = .reservedOpcode (opField w))

/-- Every step keeps the invariant: byte spaces in canonical form, every number returned with zero in bits 31:24, every
buffer returned 24 blocks long or empty. The canonical form is the model's (log entry 4). -/
def Obligations.StepKeepsInvariant : Prop :=
  ∀ s t : State, s.Inv → step s = .next t → t.Inv

/-- The invariant holds at reset. That the byte spaces of State.reset are empty is the model's choice (log entry 2), and
so is the canonical form that the empty space has (log entry 4). -/
def Obligations.ResetMeetsInvariant : Prop := State.reset.Inv

/-- A run whose inputs hold no reserved opcode is never refused and never stops, however long (R7; R177, which the spec
marks as derived). -/
def Obligations.SafeRunsNeverStop : Prop :=
  ∀ (k : Nat) (s : State), s.Safe → ∃ t : State, core.run k s = .next t ∧ t.Safe ∧ t.inputs = s.inputs.drop k

/-- A program of abstract operations, assembled into command words and byte spaces and run on the machine from any state,
ends in the Pixel and returns the results that the spec's `step : State -> Op -> State × Result` gives, in order
(`00_scope.md` section 9; `70_reset_and_hazards.md` R204; the spec's decisions D4, D6, D22; log entries 1, 3 and 4 for the
form of inputs, results and byte spaces). -/
def Obligations.ProgramsRefineAbstractStep : Prop :=
  ∀ (ops : List Operation) (s : State),
    (∀ o ∈ ops, WellFormed o.instr) →
    ∃ t : State, core.run ops.length { s with inputs := ops.map Operation.assemble } = .next t ∧
      t.pixel = (Operation.applyAll s.pixel ops).1 ∧
      t.returned = s.returned ++ (Operation.applyAll s.pixel ops).2 ∧ t.inputs = []

/-- A system of several blocks is the product of independent copies of this machine (`10_state.md` R23, `20_memory.md`
R44): instance `k` steps exactly as the machine does, refusals included, its step leaves every other instance as it was,
and steps of two different instances give the same system in either order. The list of states, and that a place beyond
its end changes nothing, are the model's choice (log entry 10). -/
def Obligations.BlocksShareNothing : Prop :=
  (∀ (blocks : List State) (k : Nat) (s t : State), blocks[k]? = some s → step s = .next t →
    systemStep blocks k = .next (blocks.set k t)) ∧
  (∀ (blocks : List State) (k : Nat) (s : State) (why : Refusal), blocks[k]? = some s → step s = .refused why →
    systemStep blocks k = .refused why) ∧
  (∀ (blocks : List State) (k : Nat), blocks[k]? = none → systemStep blocks k = .next blocks) ∧
  (∀ (blocks next : List State) (k m : Nat), systemStep blocks k = .next next → m ≠ k → next[m]? = blocks[m]?) ∧
  (∀ (blocks one two : List State) (k m : Nat), k ≠ m → systemStep blocks k = .next one →
    systemStep blocks m = .next two → ∃ both, systemStep one m = .next both ∧ systemStep two k = .next both)
end

