-- ==== Sys2Proof/Tests/Slice0.lean ====
section
/-! SUPPORT. The model's own tests: expected values from the spec's examples and vectors (`95_test_vectors.md`, cited at each),
the smoke tests of WellFormed, and for every statement with hypotheses a witness that meets them. -/

open Sys2Proof Sys2Proof.Machine

namespace Sys2Proof.Tests

/-- A state with the given Pixel and patterns, nothing to come and nothing returned. -/
def px (r g b : Byte) (zero one : List Byte) : State :=
  { State.reset with red := r, green := g, blue := b, zp := Memory.ofBytes zero, op := Memory.ofBytes one }

/-- The state an outcome goes on in. -/
def after (o : Host.Outcome State Fault Refusal) : Option State :=
  match o with
  | .next t => some t
  | .fault _ => none
  | .refused _ => none

/-- The Pixel an outcome goes on with. -/
def pixelAfter (o : Host.Outcome State Fault Refusal) : Option Pixel := (after o).map State.pixel

/-- The last result an outcome has returned. -/
def lastResult (o : Host.Outcome State Fault Refusal) : Option Result := (after o).bind (fun t => t.returned.getLast?)

/-! ### WellFormed: an ill-formed term for each check -/

theorem test_wellFormed_refuses_long_zero_pattern : ¬ WellFormed (.encode (.present 2147483648) .absent) := by decide
theorem test_wellFormed_refuses_long_one_pattern : ¬ WellFormed (.encode .absent (.present 2147483648)) := by decide
theorem test_wellFormed_admits_longest_patterns :
    WellFormed (.encode (.present 2147483647) (.present 2147483647)) := by decide

/-! ### Decoding: words written out from `30_encoding.md` R69, R70, R73 and section 8, and vectors V44 to V47 -/

theorem test_decode_createDefault : decode 0x0_00000000_00000000_00000000#100 = .ok .createDefault := by decide
theorem test_decode_create :
    decode 0x1_000001FF_00000100_FFFFFFFF#100 = .ok (.create 0x1FF#32 0x100#32 0xFFFFFFFF#32) := by decide
theorem test_decode_createFromPacked :
    decode 0x2_FF123456_00000000_00000000#100 = .ok (.createFromPacked 0xFF123456#32) := by decide
theorem test_decode_toPacked : decode 0x3_FFFFFFFF_FFFFFFFF_FFFFFFFF#100 = .ok .toPacked := by decide
theorem test_decode_getRed : decode 0x4_00000000_00000000_00000000#100 = .ok .getRed := by decide
theorem test_decode_getGreen : decode 0x5_00000000_00000000_00000000#100 = .ok .getGreen := by decide
theorem test_decode_getBlue : decode 0x6_00000000_00000000_00000000#100 = .ok .getBlue := by decide
theorem test_decode_setRed : decode 0x7_0000007F_00000000_00000000#100 = .ok (.setRed 0x7F#32) := by decide
theorem test_decode_setGreen : decode 0x8_00000080_00000000_00000000#100 = .ok (.setGreen 0x80#32) := by decide
theorem test_decode_setBlue : decode 0x9_00000101_00000000_00000000#100 = .ok (.setBlue 0x101#32) := by decide
theorem test_decode_encode :
    decode 0xA_80000001_80000002_00000000#100 = .ok (.encode (.present 1) (.present 2)) := by decide
theorem test_decode_encode_absent_length_ignored :
    decode 0xA_00000005_80000001_00000000#100 = .ok (.encode .absent (.present 1)) := by decide
theorem test_decode_reserved_B :
    decode 0xB_00000000_00000000_00000000#100 = .error (.reservedOpcode 0xB#4) := by decide
theorem test_decode_reserved_F :
    decode 0xF_00000000_00000000_00000000#100 = .error (.reservedOpcode 0xF#4) := by decide

/-- The row ENCODE of spec/opcode_table.json, its match word. -/
theorem test_decodeTableWord_encode :
    decodeTableWord 104 0xA000000000000000000000000 = some (.encode .absent .absent) := by decide

/-- The encoder against the worked encoding `A_80000002_80000001_00000000`. -/
theorem test_encode_encode :
    encode (.encode (.present 2) (.present 1)) = 0xA_80000002_80000001_00000000#100 := by decide

/-- The encoder against the worked encoding `1_00000000_000000FF_00000001`. -/
theorem test_encode_create : encode (.create 0 255 1) = 0x1_00000000_000000FF_00000001#100 := by decide

/-! ### The Pixel operations -/

/-- V1. -/
theorem test_createDefault : pixelAfter (exec .createDefault (px 0x12 0x34 0x56 [] [])) = some ⟨0, 0, 0⟩ := by decide
/-- V5: truncation, never saturation. -/
theorem test_create_truncates :
    pixelAfter (exec (.create 0x1FF 256 0xFFFFFF80) State.reset) = some ⟨0xFF, 0x00, 0x80⟩ := by decide
/-- V11: every byte different, so a swapped or unshifted field shows. -/
theorem test_createFromPacked_fields :
    pixelAfter (exec (.createFromPacked 0x01020304) State.reset) = some ⟨0x02, 0x03, 0x04⟩ := by decide
/-- V7: the alpha byte is dropped. -/
theorem test_createFromPacked_alpha :
    pixelAfter (exec (.createFromPacked 0xFF123456) State.reset) = some ⟨0x12, 0x34, 0x56⟩ := by decide
/-- V8. -/
theorem test_toPacked :
    lastResult (exec .toPacked (px 0x12 0x34 0x56 [] [])) = some (.word 0x00123456) := by decide
/-- V12. -/
theorem test_toPacked_rgb_order :
    lastResult (exec .toPacked (px 0x00 0xFF 0x01 [] [])) = some (.word 0x0000FF01) := by decide
/-- V14. -/
theorem test_getRed : lastResult (exec .getRed (px 0xAB 0xCD 0xEF [] [])) = some (.word 0x000000AB) := by decide
/-- V15. -/
theorem test_getGreen : lastResult (exec .getGreen (px 0xAB 0xCD 0xEF [] [])) = some (.word 0x000000CD) := by decide
/-- V16. -/
theorem test_getBlue : lastResult (exec .getBlue (px 0xAB 0xCD 0xEF [] [])) = some (.word 0x000000EF) := by decide
/-- V17. -/
theorem test_setRed :
    pixelAfter (exec (.setRed 0x7F) (px 0x12 0x34 0x56 [] [])) = some ⟨0x7F, 0x34, 0x56⟩ := by decide
/-- V18. -/
theorem test_setGreen :
    pixelAfter (exec (.setGreen 0x80) (px 0x12 0x34 0x56 [] [])) = some ⟨0x12, 0x80, 0x56⟩ := by decide
/-- V19. -/
theorem test_setBlue :
    pixelAfter (exec (.setBlue 0x101) (px 0x12 0x34 0x56 [] [])) = some ⟨0x12, 0x34, 0x01⟩ := by decide

/-! ### ENCODE -/

/-- V26: wire order, bit order and symbol choice in one asymmetric Pixel. -/
theorem test_encode_order :
    lastResult (exec (.encode (.present 1) (.present 1)) (px 0x12 0x34 0x56 [0x80] [0xC0])) =
      some (.buffer [0x80, 0x80, 0xC0, 0xC0, 0x80, 0xC0, 0x80, 0x80, 0x80, 0x80, 0x80, 0xC0, 0x80, 0x80, 0xC0, 0x80,
        0x80, 0xC0, 0x80, 0xC0, 0x80, 0xC0, 0xC0, 0x80]) := by decide +kernel
/-- Step 5 of program P3 as its command word: length 2, blue 1, so 46 bytes `11` and then `22 22`. -/
theorem test_step_encode_two_byte_symbols :
    lastResult (step (State.issueNext (px 0x00 0x00 0x01 [0x11, 0x11] [0x22, 0x22])
      0xA_80000002_80000002_00000000#100)) = some (.buffer (List.replicate 46 0x11 ++ [0x22, 0x22])) := by decide +kernel

/-! ### A whole step -/

/-- Step 1 of program P1, issued as its command word. -/
theorem test_step_create :
    pixelAfter (step (State.reset.withFetchWord 104 0x1_00000000_000000FF_00000001)) =
      some ⟨0x00, 0xFF, 0x01⟩ := by decide
/-- V46: a reserved opcode has no next state. -/
theorem test_step_reserved :
    after (step (State.reset.withFetchWord 104 0xB_00000000_00000000_00000000)) = none := by decide

/-! ### Witnesses: the hypotheses of the statements, met together -/

/-- A state whose next input is the given word, with the patterns [0x80] and [0xC0]. -/
def issued (w : CommandWord) : State :=
  { State.reset with inputs := [.command w (Memory.ofBytes [0x80]) (Memory.ofBytes [0xC0])] }

theorem witness_DecodeEncodeRoundTrip :
    WellFormed (.encode (.present 2147483647) .absent) ∧ WellFormed (.create 0xFFFFFFFF 0 0x100) := by decide
theorem witness_DecodedOperationsAreWellFormed :
    decode 0xA_FFFFFFFF_80000000_00000000#100 = .ok (.encode (.present 2147483647) (.present 0)) := by decide
theorem witness_IgnoredBitsHaveNoEffect_opcodes :
    0x0#4 ∈ [0x0#4, 0x3#4, 0x4#4, 0x5#4, 0x6#4] ∧ 0x9#4 ∈ [0x2#4, 0x7#4, 0x8#4, 0x9#4] := by decide
theorem witness_IgnoredBitsHaveNoEffect_absent :
    (0x7FFFFFFF#32).getLsbD 31 = false ∧ (0x00000000#32).getLsbD 31 = false := by decide
theorem witness_IgnoredBitsHaveNoEffect_operands :
    (0xFFFFFF00#32).toNat % 256 = (0x00000000#32).toNat % 256 ∧ (0x000001FF#32).toNat % 256 = (0x000000FF#32).toNat % 256 ∧
      (0xFF123456#32).toNat % 2 ^ 24 = (0x00123456#32).toNat % 2 ^ 24 ∧
      Instr.getBlue ∈ [Instr.createDefault, Instr.toPacked, Instr.getRed, Instr.getGreen, Instr.getBlue] := by decide
theorem witness_ReservedOpcodesRefused_reserved :
    (issued 0xB_00000000_00000000_00000000#100).inputs =
        .command 0xB_00000000_00000000_00000000#100 (Memory.ofBytes [0x80]) (Memory.ofBytes [0xC0]) :: [] ∧
      0xB ≤ (opField 0xB_00000000_00000000_00000000#100).toNat := by decide
theorem witness_ReservedOpcodesRefused_last_legal :
    (issued 0xA_80000001_80000001_00000000#100).inputs =
        .command 0xA_80000001_80000001_00000000#100 (Memory.ofBytes [0x80]) (Memory.ofBytes [0xC0]) :: [] ∧
      (opField 0xA_80000001_80000001_00000000#100).toNat ≤ 0xA := by decide
theorem witness_CreateDefaultClearsPixel :
    ∃ t u, exec .createDefault (px 0x12 0x34 0x56 [] []) = .next t ∧ exec .createDefault t = .next u := ⟨_, _, rfl, rfl⟩
theorem witness_CreateLoadsLowBytes : ∃ t, exec (.create 0x100 0xFF 0xFFFFFFFF) State.reset = .next t := ⟨_, rfl⟩
theorem witness_CreateFromPackedSplitsValue : ∃ t, exec (.createFromPacked 0xFF000100) State.reset = .next t := ⟨_, rfl⟩
theorem witness_MutatorsWriteOneChannel :
    (0x112#32).toNat % 256 = (px 0x12 0x12 0x12 [] []).red.toNat ∧
      (0x112#32).toNat % 256 = (px 0x12 0x12 0x12 [] []).green.toNat ∧
      (0x112#32).toNat % 256 = (px 0x12 0x12 0x12 [] []).blue.toNat ∧
      (∃ t, exec (.setRed 0x112) (px 0x12 0x12 0x12 [] []) = .next t) ∧
      (∃ t, exec (.setGreen 0x112) (px 0x12 0x12 0x12 [] []) = .next t) ∧
      ∃ t, exec (.setBlue 0x112) (px 0x12 0x12 0x12 [] []) = .next t :=
  ⟨by decide, by decide, by decide, ⟨_, rfl⟩, ⟨_, rfl⟩, ⟨_, rfl⟩⟩
theorem witness_PackedRoundTrip : (0x00FFFFFF#32).toNat ≤ 0xFFFFFF := by decide
theorem witness_PixelOperationsNeverFail : ∀ z o : Descriptor, Instr.setBlue 0x100 ≠ .encode z o := by simp
theorem witness_PixelOperationsFrame :
    (∀ z o : Descriptor, Instr.toPacked ≠ .encode z o) ∧
      Instr.getBlue ∈ [Instr.toPacked, Instr.getRed, Instr.getGreen, Instr.getBlue] ∧
      (∃ t, exec (.setRed 0xFF) State.reset = .next t) ∧ (∃ t, exec (.setGreen 0xFF) State.reset = .next t) ∧
      (∃ t, exec (.setBlue 0xFF) State.reset = .next t) ∧
      ∃ t u, exec .getBlue (px 1 2 3 [] []) = .next t ∧ exec .getBlue t = .next u :=
  ⟨by simp, by decide, ⟨_, rfl⟩, ⟨_, rfl⟩, ⟨_, rfl⟩, ⟨_, _, rfl, rfl⟩⟩
theorem witness_NarrowingWraps : (0x000000FF#32).toNat ≤ 255 := by decide
theorem witness_RegistersWrittenOnlyByListed :
    ∃ t u v : State,
      (exec (.setRed 1) State.reset = .next t ∧ t.red ≠ State.reset.red) ∧
      (exec (.createFromPacked 0x0000FF00) State.reset = .next u ∧ u.green ≠ State.reset.green) ∧
      (exec (.create 0 0 1) State.reset = .next v ∧ v.blue ≠ State.reset.blue) :=
  ⟨_, _, _, ⟨rfl, by decide⟩, ⟨rfl, by decide⟩, ⟨rfl, by decide⟩⟩
theorem witness_EncodedLength : 1 ≤ 1 ∧ 1 ≤ Config.patternLenMax := by decide
theorem witness_EncodeConcatenatesSymbols : 1 ≤ 1 ∧ 23 < 24 ∧ 0 < 1 := by decide
theorem witness_EncodeClosedForm : 1 ≤ 2 ∧ 47 < 24 * 2 ∧ ¬ 48 < 24 * 2 := by decide
theorem witness_EncodeWireOrder : 1 ≤ 1 ∧ 7 < 8 ∧ 0 < 1 := by decide
theorem witness_SerialFrameIsFrameWord : 0 < 24 ∧ 23 < 24 := by decide
/-- Two Pixels that agree in serial bit 8 (RED[7]) and in no other bit. -/
theorem witness_BlockDependsOnOneBit :
    7 < 8 ∧ 8 < 24 ∧ 0 < 1 ∧ (px 0x80 0x00 0x00 [0x80] [0xC0]).pixel.serialBit 8 = (px 0xFF 0xFF 0xFF [0x80] [0xC0]).pixel.serialBit 8 ∧
      ∃ (t t' : State) (out out' : List Byte),
        exec (.encode (.present 1) (.present 1)) (px 0x80 0x00 0x00 [0x80] [0xC0]) = .next t ∧
        t.returned = (px 0x80 0x00 0x00 [0x80] [0xC0]).returned ++ [.buffer out] ∧
        exec (.encode (.present 1) (.present 1)) (px 0xFF 0xFF 0xFF [0x80] [0xC0]) = .next t' ∧
        t'.returned = (px 0xFF 0xFF 0xFF [0x80] [0xC0]).returned ++ [.buffer out'] :=
  ⟨by decide, by decide, by decide, by decide, _, _, _, _, rfl, rfl, rfl, rfl⟩
theorem witness_WritePositionAdvances : 0 ≤ 24 ∧ 24 ≤ 24 := by decide
theorem witness_EncodeFrame :
    ∃ t, exec (.encode (.present 1) .absent) (px 0x12 0x34 0x56 [0x80] []) = .next t := ⟨_, rfl⟩
/-- Two different states with one Pixel and one pair of patterns. -/
theorem witness_EncodeIsPure :
    (px 1 2 3 [0x80] [0xC0]).pixel = (State.deliver (px 1 2 3 [0x80, 0x81] [0xC0, 0xC1]) .nothing).pixel ∧
      patternOf (.present 1) (px 1 2 3 [0x80] [0xC0]).zp =
        patternOf (.present 1) (State.deliver (px 1 2 3 [0x80, 0x81] [0xC0, 0xC1]) .nothing).zp ∧
      patternOf (.present 1) (px 1 2 3 [0x80] [0xC0]).op =
        patternOf (.present 1) (State.deliver (px 1 2 3 [0x80, 0x81] [0xC0, 0xC1]) .nothing).op := by decide
theorem witness_EncodeUniformCorners_black : 1 ≤ 1 ∧ (px 0 0 0 [0x11] [0x22]).pixel = ⟨0x00#8, 0x00#8, 0x00#8⟩ := by decide
theorem witness_EncodeUniformCorners_white :
    1 ≤ 1 ∧ (px 0xFF 0xFF 0xFF [0x11] [0x22]).pixel = ⟨0xFF#8, 0xFF#8, 0xFF#8⟩ ∧ 23 < 24 := by decide
theorem witness_EncodeUniformCorners_equal :
    1 ≤ 1 ∧ Memory.bytes (px 1 2 3 [0xAA] [0xAA]).zp 1 = Memory.bytes (px 1 2 3 [0xAA] [0xAA]).op 1 := by decide
/-- The Pixels of the complement law of `95_test_vectors.md` section 2.5. -/
theorem witness_EncodeSwapComplements :
    (px 0xED 0xCB 0xA9 [3, 4] [1, 2]).red = (px 0x12 0x34 0x56 [1, 2] [3, 4]).red ^^^ 0xFF#8 ∧
      (px 0xED 0xCB 0xA9 [3, 4] [1, 2]).green = (px 0x12 0x34 0x56 [1, 2] [3, 4]).green ^^^ 0xFF#8 ∧
      (px 0xED 0xCB 0xA9 [3, 4] [1, 2]).blue = (px 0x12 0x34 0x56 [1, 2] [3, 4]).blue ^^^ 0xFF#8 ∧
      (px 0xED 0xCB 0xA9 [3, 4] [1, 2]).zp = (px 0x12 0x34 0x56 [1, 2] [3, 4]).op ∧
      (px 0xED 0xCB 0xA9 [3, 4] [1, 2]).op = (px 0x12 0x34 0x56 [1, 2] [3, 4]).zp := by decide
theorem witness_EncodeLosesNoInformation :
    1 ≤ 3 ∧ (px 1 2 3 [0x88, 0x80, 0x00] [0x88, 0x80, 0x01]).zp = (px 0 0 0 [0x88, 0x80, 0x00] [0x88, 0x80, 0x01]).zp ∧
      (px 1 2 3 [0x88, 0x80, 0x00] [0x88, 0x80, 0x01]).op = (px 0 0 0 [0x88, 0x80, 0x00] [0x88, 0x80, 0x01]).op ∧
      Memory.bytes (px 1 2 3 [0x88, 0x80, 0x00] [0x88, 0x80, 0x01]).zp 3 ≠
        Memory.bytes (px 1 2 3 [0x88, 0x80, 0x00] [0x88, 0x80, 0x01]).op 3 := by decide
theorem witness_DegenerateEncodeLeavesNoTrace :
    ∃ t u u' : State, exec (.encode (.present 0) (.present 1)) (px 1 2 3 [] [0xC0]) = .next t ∧
      t.returned = (px 1 2 3 [] [0xC0]).returned ++ [.buffer []] ∧ exec .toPacked t = .next u ∧
      exec .toPacked (px 1 2 3 [] [0xC0]) = .next u' := ⟨_, _, _, rfl, rfl, rfl, rfl⟩
theorem witness_StepRunsDecodedOperation :
    (issued 0x9_00000101_00000000_00000000#100).inputs =
        .command 0x9_00000101_00000000_00000000#100 (Memory.ofBytes [0x80]) (Memory.ofBytes [0xC0]) :: [] ∧
      decode 0x9_00000101_00000000_00000000#100 = .ok (.setBlue 0x101) := by decide
theorem witness_IdleBlockWaits : State.reset.inputs = [] := by decide
theorem witness_ResetInputClearsPixel :
    ({ px 1 2 3 [] [] with inputs := [.reset] } : State).inputs = .reset :: [] ∧
      ∃ t, exec .createDefault (px 1 2 3 [] []) = .next t := ⟨rfl, _, rfl⟩
theorem witness_ResetStateIsBlack : ∃ t, exec .createDefault (px 1 2 3 [] []) = .next t := ⟨_, rfl⟩
theorem witness_ReturnedResultsAreTheCallers :
    ∃ t, step (issued 0x3_00000000_00000000_00000000#100) = .next t := ⟨_, rfl⟩
theorem witness_InputsTakeEffectInIssueOrder :
    ∃ t, core.run ([Input.reset].length) { px 1 2 3 [] [] with inputs := [.reset] } = .next t := ⟨_, rfl⟩
theorem witness_ReadingOperationsCommute :
    Instr.getBlue ∈ [Instr.toPacked, Instr.getRed, Instr.getGreen, Instr.getBlue] ∧
      ∃ z o, Instr.encode .absent (.present 1) = .encode z o := ⟨by decide, _, _, rfl⟩
theorem witness_EveryOperationCompletes :
    ∃ why, step (issued 0xF_00000000_00000000_00000000#100) = .refused why := ⟨_, rfl⟩
/-- The invariant holds of a state that no longer is reset's, whose step runs an ENCODE. -/
theorem witness_StepKeepsInvariant :
    (issued 0xA_80000001_80000001_00000000#100).Inv ∧
      ∃ t, step (issued 0xA_80000001_80000001_00000000#100) = .next t := by
  refine ⟨⟨Memory.wf_nil, Memory.wf_nil, ?_, ?_⟩, _, rfl⟩
  · intro i hi
    rw [List.mem_singleton.1 hi]
    exact ⟨Memory.ofBytes_wf _, Memory.ofBytes_wf _⟩
  · intro r hr
    simp [issued, State.reset] at hr
theorem witness_SafeRunsNeverStop : (issued 0xA_80000001_80000001_00000000#100).Safe := by
  intro i hi
  rw [List.mem_singleton.1 hi]
  show (opField _).toNat ≤ 0xA
  decide
theorem witness_ProgramsRefineAbstractStep :
    ∀ o ∈ [Operation.create 0x1FF 0 0, Operation.encode (some [0x80]) (some [0xC0]), Operation.encode none (some [])],
      WellFormed o.instr := by decide
theorem witness_BlocksShareNothing :
    ∃ one two, systemStep [px 1 2 3 [] [], issued 0x3_00000000_00000000_00000000#100] 0 = .next one ∧
      systemStep [px 1 2 3 [] [], issued 0x3_00000000_00000000_00000000#100] 1 = .next two ∧ (0 : Nat) ≠ 1 :=
  ⟨_, _, rfl, rfl, by decide⟩
/-- The last place of a system, holding a block that steps. -/
theorem witness_BlocksShareNothing_next :
    [State.reset, issued 0x3_00000000_00000000_00000000#100][1]? = some (issued 0x3_00000000_00000000_00000000#100) ∧
      ∃ t, step (issued 0x3_00000000_00000000_00000000#100) = .next t := ⟨rfl, _, rfl⟩
/-- A block whose next command has a reserved opcode. -/
theorem witness_BlocksShareNothing_refused :
    [issued 0xB_00000000_00000000_00000000#100][0]? = some (issued 0xB_00000000_00000000_00000000#100) ∧
      ∃ why, step (issued 0xB_00000000_00000000_00000000#100) = .refused why := ⟨rfl, _, rfl⟩
/-- The first place beyond the end. -/
theorem witness_BlocksShareNothing_beyond : [State.reset][1]? = none := rfl

end Sys2Proof.Tests
end

/-! Runs as a whole: a step always takes exactly the next input, and without reserved opcodes there always is a step. -/

namespace Sys2Proof.Machine

/-! ### What a step does to the inputs still to come -/

/-- An operation takes no input of its own: the inputs still to come are the caller's (`70_reset_and_hazards.md` R204). -/
theorem exec_inputs {i : Instr} {s t : State} (h : exec i s = .next t) : t.inputs = s.inputs := by
  obtain ⟨t', r, hx, -, -, hin, -⟩ := exec_delivers i s
  cases h.symm.trans hx
  exact hin

/-- A step takes the next input, and only that one; the idle step has none to take. -/
theorem step_inputs {s t : State} (h : step s = .next t) : t.inputs = s.inputs.drop 1 := by
  obtain ⟨hin, rfl⟩ | ⟨rest, hin, rfl⟩ | ⟨w, zp, op, rest, i, hin, -, hx⟩ := step_cases h
  · simp [hin]
  · simp [hin]
  · simp [exec_inputs hx, hin]

/-- Taking inputs brings no reserved opcode in. -/
theorem State.Safe.of_inputs_drop {s t : State} {n : Nat} (hs : s.Safe) (h : t.inputs = s.inputs.drop n) : t.Safe :=
  fun i hi => hs i (List.mem_of_mem_drop (h ▸ hi))

/-! ### Which outcomes a step can have -/

/-- No step faults: the block has no reason to (`60_exceptions.md` R163, R177), and `Fault` has no constructor. -/
theorem step_ne_fault (s : State) (why : Fault) : step s ≠ .fault why := nomatch why

/-- A state without reserved opcodes has a next state. -/
theorem State.Safe.step_next {s : State} (hs : s.Safe) : ∃ t, step s = .next t := by
  cases h : step s with
  | next t => exact ⟨t, rfl⟩
  | fault why => exact absurd h (step_ne_fault s why)
  | refused why =>
    obtain ⟨w, zp, op, rest, hin, hop, -⟩ := step_refused h
    have hlegal : (opField w).toNat ≤ 0xA := hs (.command w zp op) (by simp [hin])
    omega

/-! ### The statements -/

/-- Settles O45, from what every operation delivers and what a refusing step found. -/
theorem everyOperationCompletes : Obligations.EveryOperationCompletes := by
  refine ⟨fun i s => ?_, step_ne_fault, fun s why => step_refused⟩
  obtain ⟨t, r, hx, -⟩ := exec_delivers i s
  exact ⟨t, hx⟩

/-- Settles O48, by induction on the number of steps. Steps past the last input are idle ones (`70_reset_and_hazards.md`
R192). -/
theorem safeRunsNeverStop : Obligations.SafeRunsNeverStop := by
  intro k
  induction k with
  | zero => exact fun s hs => ⟨s, run_zero s, hs, rfl⟩
  | succ k ih =>
    intro s hs
    obtain ⟨u, hstep⟩ := hs.step_next
    have hin : u.inputs = s.inputs.drop 1 := step_inputs hstep
    obtain ⟨t, hrun, ht, hdrop⟩ := ih u (hs.of_inputs_drop hin)
    refine ⟨t, (run_succ_of_next hstep k).trans hrun, ht, ?_⟩
    rw [hdrop, hin, List.drop_drop, Nat.add_comm]

end Sys2Proof.Machine

/-! A system of several blocks: what a step of one block does, and why it cannot be seen from another (`10_state.md` R23,
`20_memory.md` R44). -/

namespace Sys2Proof.Machine

section
variable {blocks next : List State} {k m : Nat} {s t : State}

/-! ### What a step of the system does, case by case -/

theorem systemStep_of_next (hk : blocks[k]? = some s) (h : step s = .next t) :
    systemStep blocks k = .next (blocks.set k t) := by
  simp only [systemStep, hk, h]

theorem systemStep_of_refused {why : Refusal} (hk : blocks[k]? = some s) (h : step s = .refused why) :
    systemStep blocks k = .refused why := by
  simp only [systemStep, hk, h]

theorem systemStep_of_none (hk : blocks[k]? = none) : systemStep blocks k = .next blocks := by
  simp only [systemStep, hk]

/-- A system with a next state had no block at the place, or had one that stepped and was put back there. -/
theorem systemStep_cases (h : systemStep blocks k = .next next) :
    (blocks[k]? = none ∧ next = blocks) ∨
      ∃ s t, blocks[k]? = some s ∧ step s = .next t ∧ next = blocks.set k t := by
  cases hk : blocks[k]? with
  | none => exact .inl ⟨rfl, Host.Outcome.next.inj (h.symm.trans (systemStep_of_none hk))⟩
  | some s =>
    cases hs : step s with
    | next t =>
      exact .inr ⟨s, t, rfl, hs, Host.Outcome.next.inj (h.symm.trans (systemStep_of_next hk hs))⟩
    | fault why => exact absurd hs (step_ne_fault s why)
    | refused why => cases h.symm.trans (systemStep_of_refused hk hs)

/-! ### One block and another -/

/-- A block's step leaves the other places of the system as they were. -/
theorem systemStep_frame (h : systemStep blocks k = .next next) (hmk : m ≠ k) : next[m]? = blocks[m]? := by
  obtain ⟨-, rfl⟩ | ⟨s, t, -, -, rfl⟩ := systemStep_cases h
  · rfl
  · exact List.getElem?_set_ne hmk.symm

/-- A block's step does the same whatever state stands at another place. -/
theorem systemStep_set (h : systemStep blocks k = .next next) (hmk : m ≠ k) (u : State) :
    systemStep (blocks.set m u) k = .next (next.set m u) := by
  have hplace : (blocks.set m u)[k]? = blocks[k]? := List.getElem?_set_ne hmk
  obtain ⟨hk, rfl⟩ | ⟨s, t, hk, hs, rfl⟩ := systemStep_cases h
  · exact systemStep_of_none (hplace.trans hk)
  · rw [systemStep_of_next (hplace.trans hk) hs, List.set_comm u t hmk]

/-- Steps of two different blocks reach one system in either order: the second block finds its own state where it was,
and the first does not see what the second left. -/
theorem systemStep_comm {one two : List State} (hkm : k ≠ m) (hone : systemStep blocks k = .next one)
    (htwo : systemStep blocks m = .next two) :
    ∃ both, systemStep one m = .next both ∧ systemStep two k = .next both := by
  have hplace : one[m]? = blocks[m]? := systemStep_frame hone hkm.symm
  obtain ⟨hm, rfl⟩ | ⟨s, u, hm, hs, rfl⟩ := systemStep_cases htwo
  · exact ⟨one, systemStep_of_none (hplace.trans hm), hone⟩
  · exact ⟨one.set m u, systemStep_of_next (hplace.trans hm) hs, systemStep_set hone hkm.symm u⟩

end

/-! ### The statement -/

/-- Settles O50, from what a step of one block does and from its frame. -/
theorem blocksShareNothing : Obligations.BlocksShareNothing :=
  ⟨fun _ _ _ _ => systemStep_of_next, fun _ _ _ _ => systemStep_of_refused, fun _ _ => systemStep_of_none,
    fun _ _ _ _ => systemStep_frame, fun _ _ _ _ _ => systemStep_comm⟩

end Sys2Proof.Machine

/-! The results returned to the caller: a step adds to them and does not look at them (`20_memory.md` R33). -/

namespace Sys2Proof.Machine

section
variable {s t : State}

/-! ### What a step answers, by the input it finds -/

theorem step_of_inputs_nil (hin : s.inputs = []) : step s = .next s := by
  simp only [step, fetch, hin]

theorem step_of_inputs_reset {rest : List Input} (hin : s.inputs = .reset :: rest) :
    step s = .next (State.applyReset { s with inputs := rest }) := by
  simp only [step, fetch, hin]

theorem step_of_inputs_command {w : CommandWord} {zp op : Memory} {rest : List Input} {i : Instr}
    (hin : s.inputs = .command w zp op :: rest) (hd : decode w = .ok i) :
    step s = exec i (s.accept zp op rest) := by
  simp only [step, fetch, hin, hd]

/-! ### An operation and the results before it -/

/-- The loops of ENCODE read the registers and the byte spaces, and nothing of what was returned earlier. -/
theorem encodeBuffer_returned (zero one : Descriptor) (s : State) (before : List Result) :
    encodeBuffer zero one { s with returned := before } = encodeBuffer zero one s := rfl

/-- An operation puts one result after those returned earlier, and does the same whatever they were. -/
theorem exec_appends_result {i : Instr} (h : exec i s = .next t) :
    ∃ r : Result, t.returned = s.returned ++ [r] ∧
      ∀ before : List Result, exec i { s with returned := before } = .next { t with returned := before ++ [r] } := by
  cases i with
  | encode zero one =>
    cases h
    refine ⟨.buffer (encodeBuffer zero one s), rfl, fun before => ?_⟩
    rw [exec, execEncode, encodeBuffer_returned]
    rfl
  | createDefault | create | createFromPacked | setRed | setGreen | setBlue =>
    cases h
    exact ⟨.nothing, rfl, fun _ => rfl⟩
  | toPacked | getRed | getGreen | getBlue =>
    cases h
    exact ⟨.word _, rfl, fun _ => rfl⟩

end

/-! ### The statement -/

/-- Settles O42, by the cases of a step: an idle step and a reset add no result, an operation adds one. -/
theorem returnedResultsAreTheCallers : Obligations.ReturnedResultsAreTheCallers := by
  intro s t h
  obtain ⟨hin, rfl⟩ | ⟨rest, hin, rfl⟩ | ⟨w, zp, op, rest, i, hin, hd, hx⟩ := step_cases h
  · refine ⟨[], (List.append_nil _).symm, fun before => ?_⟩
    rw [List.append_nil]
    exact step_of_inputs_nil hin
  · refine ⟨[], (List.append_nil _).symm, fun before => ?_⟩
    rw [List.append_nil]
    exact step_of_inputs_reset hin
  · obtain ⟨r, hr, hsame⟩ := exec_appends_result hx
    refine ⟨[r], hr, fun before => ?_⟩
    rw [step_of_inputs_command (s := { s with returned := before }) hin hd]
    exact hsame before

end Sys2Proof.Machine

/-! The buffer of an ENCODE: when it is empty, and byte for byte what a valid one holds (`30_encoding.md` R62 to R68). -/

namespace Sys2Proof.Machine

/-! ### The serial frame, channel by channel -/

section
variable (p : Pixel) {n m k : Nat}

/-- A bit of the frame word, by the byte it lies in: BLUE low, RED in the middle, GREEN high (R64). -/
theorem Pixel.frameWord_getLsbD : p.frameWord.getLsbD n =
    if n < 8 then p.blue.getLsbD n
    else if n - 8 < 8 then p.red.getLsbD (n - 8)
    else p.green.getLsbD (n - 8 - 8) := by
  rw [Pixel.frameWord, BitVec.getLsbD_cast, BitVec.getLsbD_append, BitVec.getLsbD_append]

theorem Pixel.frameWord_getLsbD_blue (hn : n < 8) : p.frameWord.getLsbD n = p.blue.getLsbD n := by
  rw [Pixel.frameWord_getLsbD, if_pos hn]

theorem Pixel.frameWord_getLsbD_red (hn : n < 8) : p.frameWord.getLsbD (8 + n) = p.red.getLsbD n := by
  rw [Pixel.frameWord_getLsbD, if_neg (by omega), Nat.add_sub_cancel_left, if_pos hn]

theorem Pixel.frameWord_getLsbD_green : p.frameWord.getLsbD (16 + n) = p.green.getLsbD n := by
  rw [Pixel.frameWord_getLsbD, if_neg (by omega), if_neg (by omega), show 16 + n - 8 - 8 = n by omega]

/-- The frame word as a number: the three channels at the weights of their bytes. -/
theorem Pixel.frameWord_toNat :
    p.frameWord.toNat = p.green.toNat * 65536 + p.red.toNat * 256 + p.blue.toNat := by
  have hr := p.red.isLt
  have hb := p.blue.isLt
  rw [Pixel.frameWord, BitVec.toNat_cast, BitVec.toNat_append, BitVec.toNat_append,
    ← Nat.shiftLeft_add_eq_or_of_lt hb, ← Nat.shiftLeft_add_eq_or_of_lt hr, Nat.shiftLeft_eq, Nat.shiftLeft_eq]
  omega

/-- The first eight serial bits are GREEN, most significant bit first (R62, R63). -/
theorem Pixel.serialBit_green (hm : m < 8) : p.serialBit m = p.green.getLsbD (7 - m) := by
  simp only [Pixel.serialBit, show m / 8 = 0 by omega, Nat.mod_eq_of_lt hm]

/-- The next eight are RED, most significant bit first. -/
theorem Pixel.serialBit_red (hm : m < 8) : p.serialBit (8 + m) = p.red.getLsbD (7 - m) := by
  simp only [Pixel.serialBit, show (8 + m) / 8 = 1 by omega, show (8 + m) % 8 = m by omega]

/-- The last eight are BLUE, most significant bit first. -/
theorem Pixel.serialBit_blue (hm : m < 8) : p.serialBit (16 + m) = p.blue.getLsbD (7 - m) := by
  simp only [Pixel.serialBit, show (16 + m) / 8 = 2 by omega, show (16 + m) % 8 = m by omega]

/-- A place of the serial frame lies in the block of one of the three channels. -/
theorem serialIndex_cases (hk : k < 24) : ∃ m < 8, m = k ∨ 8 + m = k ∨ 16 + m = k :=
  ⟨k % 8, by omega, by omega⟩

/-- The two forms of the serial bit in R64: by channel and bit, and by its place in the frame word. -/
theorem Pixel.serialBit_eq_frameWord (hk : k < 24) : p.serialBit k = p.frameWord.getLsbD (23 - k) := by
  obtain ⟨m, hm, rfl | rfl | rfl⟩ := serialIndex_cases hk
  · rw [p.serialBit_green hm, show 23 - m = 16 + (7 - m) by omega, p.frameWord_getLsbD_green]
  · rw [p.serialBit_red hm, show 23 - (8 + m) = 8 + (7 - m) by omega, p.frameWord_getLsbD_red (by omega)]
  · rw [p.serialBit_blue hm, show 23 - (16 + m) = 7 - m by omega, p.frameWord_getLsbD_blue (by omega)]

end

/-! ### Blocks of one length, side by side -/

section
variable {α β : Type} {f : α → List β} {len : Nat}

theorem length_flatMap_blocks (hf : ∀ a, (f a).length = len) (l : List α) :
    (l.flatMap f).length = l.length * len := by
  simp [List.length_flatMap, hf]

/-- Offset `k * len + j` of the concatenation is offset `j` of block `k`. -/
theorem getElem?_flatMap_blocks (hf : ∀ a, (f a).length = len) {l : List α} {k j : Nat} {a : α}
    (hk : l[k]? = some a) (hj : j < len) : (l.flatMap f)[k * len + j]? = (f a)[j]? := by
  induction l generalizing k with
  | nil => simp at hk
  | cons b l ih =>
    rw [List.flatMap_cons]
    cases k with
    | zero =>
      obtain rfl : b = a := by simpa using hk
      rw [List.getElem?_append_left (by rw [hf]; omega), Nat.zero_mul, Nat.zero_add]
    | succ k =>
      have hsplit : (k + 1) * len + j = len + (k * len + j) := by rw [Nat.succ_mul]; omega
      rw [List.getElem?_append_right (by rw [hf]; omega), hf, hsplit, Nat.add_sub_cancel_left]
      exact ih (by simpa using hk)

end

/-! ### What ENCODE returns -/

/-- ENCODE completes with its buffer returned and changes nothing else (R131, R132). -/
theorem exec_encode (z o : Descriptor) (s : State) :
    exec (.encode z o) s = .next { s with returned := s.returned ++ [.buffer (encodeBuffer z o s)] } := rfl

/-- ENCODE is valid at length `len` when both patterns are present with that length, which is at least 1 (R121). -/
theorem symbolLength_eq_some_iff {z o : Descriptor} {len : Nat} :
    symbolLength z o = some len ↔ 1 ≤ len ∧ z = .present len ∧ o = .present len := by
  cases z with
  | absent => cases o <;> simp [symbolLength]
  | present lz =>
    cases o with
    | absent => simp [symbolLength]
    | present lo =>
      simp only [symbolLength, Descriptor.present.injEq]
      split_ifs with hempty hdiff
      · exact iff_of_false nofun (by omega)
      · exact iff_of_false nofun (by omega)
      · simp only [Option.some.injEq]
        omega

/-- Some length makes ENCODE valid exactly when the five conditions hold (R121, `30_encoding.md` R68). -/
theorem exists_symbolLength_iff {z o : Descriptor} :
    (∃ len, symbolLength z o = some len) ↔
      z ≠ .absent ∧ o ≠ .absent ∧ (∀ m, z = .present m → 1 ≤ m) ∧ (∀ m, o = .present m → 1 ≤ m) ∧ z = o := by
  constructor
  · rintro ⟨len, h⟩
    obtain ⟨hlen, rfl, rfl⟩ := symbolLength_eq_some_iff.1 h
    simp [hlen]
  · rintro ⟨hz, -, hlen, -, rfl⟩
    cases z with
    | absent => exact absurd rfl hz
    | present len => exact ⟨len, symbolLength_eq_some_iff.2 ⟨hlen len rfl, rfl, rfl⟩⟩

theorem encodeBuffer_of_none {z o : Descriptor} (h : symbolLength z o = none) (s : State) :
    encodeBuffer z o s = [] := by
  simp only [encodeBuffer, h]

theorem encodeBuffer_of_some {z o : Descriptor} {len : Nat} (h : symbolLength z o = some len) (s : State) :
    encodeBuffer z o s = expansion s.pixel (Memory.bytes s.zp len) (Memory.bytes s.op len) := by
  obtain ⟨-, -, hbytes⟩ := expandPixel_spec s len
  simp only [encodeBuffer, h, hbytes]

/-- The symbol of a serial bit is the first `len` bytes of the byte space it selects (R65). -/
theorem symbol_bytes (zp op : Memory) (len : Nat) (b : Bool) :
    symbol (Memory.bytes zp len) (Memory.bytes op len) b = Memory.bytes (if b then op else zp) len := by
  cases b <;> rfl

theorem Memory.getElem?_bytes (m : Memory) {len j : Nat} (hj : j < len) :
    (Memory.bytes m len)[j]? = some (Memory.read m j) := by
  simp [Memory.bytes, hj]

theorem Pixel.getElem?_serialFrame (p : Pixel) {k : Nat} (hk : k < 24) :
    p.serialFrame[k]? = some (p.serialBit k) := by
  simp [Pixel.serialFrame, hk]

theorem length_expansion (p : Pixel) (zp op : Memory) (len : Nat) :
    (expansion p (Memory.bytes zp len) (Memory.bytes op len)).length = 24 * len := by
  rw [expansion, length_flatMap_blocks (fun b => by rw [symbol_bytes, Memory.bytes_length]), p.serialFrame_length]

/-- Byte `j` of block `k` of the expansion is `P(b_k)[j]` (R66). -/
theorem getElem?_expansion (p : Pixel) (zp op : Memory) {len k j : Nat} (hk : k < 24) (hj : j < len) :
    (expansion p (Memory.bytes zp len) (Memory.bytes op len))[k * len + j]? =
      some (Memory.read (if p.serialBit k then op else zp) j) := by
  rw [expansion, getElem?_flatMap_blocks (fun b => by rw [symbol_bytes, Memory.bytes_length])
    (p.getElem?_serialFrame hk) hj, symbol_bytes, Memory.getElem?_bytes _ hj]

/-- The buffer is empty exactly when no length makes ENCODE valid: a valid one holds 24 blocks of at least one byte. -/
theorem encodeBuffer_eq_nil_iff {z o : Descriptor} (s : State) :
    encodeBuffer z o s = [] ↔ ¬ ∃ len, symbolLength z o = some len := by
  cases h : symbolLength z o with
  | none => simp [encodeBuffer_of_none h]
  | some len =>
    obtain ⟨hlen, -, -⟩ := symbolLength_eq_some_iff.1 h
    have hne : encodeBuffer z o s ≠ [] := by
      rw [encodeBuffer_of_some h, ← List.length_pos_iff, length_expansion]
      omega
    simp [hne]

/-- A valid ENCODE returns the expansion of the serial frame (R66), and changes nothing else. -/
theorem exec_encode_present {len : Nat} (hlen : 1 ≤ len) (s : State) :
    exec (.encode (.present len) (.present len)) s =
      .next { s with returned := s.returned ++
        [.buffer (expansion s.pixel (Memory.bytes s.zp len) (Memory.bytes s.op len))] } := by
  rw [exec_encode, encodeBuffer_of_some (symbolLength_eq_some_iff.2 ⟨hlen, rfl, rfl⟩)]

/-! ### The statements -/

/-- Settles O23, from the lengths at which ENCODE is valid. -/
theorem degenerateEncodeIsEmpty : Obligations.DegenerateEncodeIsEmpty := fun z o s =>
  ⟨_, exec_encode z o s, (encodeBuffer_eq_nil_iff s).trans (not_congr exists_symbolLength_iff)⟩

/-- Settles O25, from what the copy loops write (`expandPixel_spec`) and from the blocks of a concatenation. -/
theorem encodeConcatenatesSymbols : Obligations.EncodeConcatenatesSymbols := fun _ s hlen =>
  ⟨_, exec_encode_present hlen s, rfl, length_expansion .., fun _ _ => getElem?_expansion s.pixel s.zp s.op⟩

/-- Settles O26: offset `n` is offset `n mod L` of block `n div L`. -/
theorem encodeClosedForm : Obligations.EncodeClosedForm := by
  intro len s hlen
  refine ⟨_, exec_encode_present hlen s, fun n => ?_⟩
  by_cases hn : n < 24 * len
  · have hk : n / len < 24 := Nat.div_lt_of_lt_mul (by rwa [Nat.mul_comm])
    have hj : n % len < len := Nat.mod_lt n hlen
    have hbyte := getElem?_expansion s.pixel s.zp s.op hk hj
    rw [if_pos hn, ← s.pixel.serialBit_eq_frameWord hk, ← hbyte, Nat.div_add_mod']
  · rw [if_neg hn, List.getElem?_eq_none_iff, length_expansion]
    exact Nat.not_lt.1 hn

/-- Settles O27, from the bytes of block `k` and the channel that serial bit `k` belongs to. -/
theorem encodeWireOrder : Obligations.EncodeWireOrder := by
  intro len s hlen
  refine ⟨_, exec_encode_present hlen s, length_expansion .., fun m j hm hj => ⟨?_, ?_, ?_⟩⟩
  · rw [getElem?_expansion _ _ _ (by omega) hj, s.pixel.serialBit_green hm, State.pixel_green]
  · rw [getElem?_expansion _ _ _ (by omega) hj, s.pixel.serialBit_red hm, State.pixel_red]
  · rw [getElem?_expansion _ _ _ (by omega) hj, s.pixel.serialBit_blue hm, State.pixel_blue]

/-- Settles O28, channel by channel. -/
theorem serialFrameIsFrameWord : Obligations.SerialFrameIsFrameWord :=
  ⟨fun p _ => p.serialBit_eq_frameWord, Pixel.frameWord_toNat⟩

end Sys2Proof.Machine

/-! The ten operations of the Pixel value type: the words that spell them, what each answers, and the laws of the family
(`40_pixel_ops.md` sections 2 to 6). -/

namespace Sys2Proof

/-! ### The words of the ten operations -/

section
variable (a b c : Word)

theorem decode_commandWord_createDefault : decode (commandWord 0x0#4 a b c) = .ok .createDefault := by
  simp [decode]

theorem decode_commandWord_create : decode (commandWord 0x1#4 a b c) = .ok (.create a b c) := by
  simp [decode]

theorem decode_commandWord_createFromPacked : decode (commandWord 0x2#4 a b c) = .ok (.createFromPacked a) := by
  simp [decode]

theorem decode_commandWord_toPacked : decode (commandWord 0x3#4 a b c) = .ok .toPacked := by
  simp [decode]

theorem decode_commandWord_getRed : decode (commandWord 0x4#4 a b c) = .ok .getRed := by
  simp [decode]

theorem decode_commandWord_getGreen : decode (commandWord 0x5#4 a b c) = .ok .getGreen := by
  simp [decode]

theorem decode_commandWord_getBlue : decode (commandWord 0x6#4 a b c) = .ok .getBlue := by
  simp [decode]

theorem decode_commandWord_setRed : decode (commandWord 0x7#4 a b c) = .ok (.setRed a) := by
  simp [decode]

theorem decode_commandWord_setGreen : decode (commandWord 0x8#4 a b c) = .ok (.setGreen a) := by
  simp [decode]

theorem decode_commandWord_setBlue : decode (commandWord 0x9#4 a b c) = .ok (.setBlue a) := by
  simp [decode]

end

end Sys2Proof

namespace Sys2Proof.Machine

/-! ### Operands and results as numbers -/

section
variable (v : Word) (r g b : Byte)

theorem trunc8_toNat : (trunc8 v).toNat = v.toNat % 256 := by
  rw [trunc8_eq_ofNat, BitVec.toNat_ofNat]

theorem trunc8_eq_of_mod_eq {v : Word} {b : Byte} (h : v.toNat % 256 = b.toNat) : trunc8 v = b :=
  BitVec.eq_of_toNat_eq ((trunc8_toNat v).trans h)

@[simp] theorem trunc8_zext32 : trunc8 (zext32 b) = b :=
  trunc8_eq_of_mod_eq (by rw [zext32_toNat, Nat.mod_eq_of_lt b.isLt])

theorem zext32_trunc8_of_le {v : Word} (h : v.toNat ≤ 255) : zext32 (trunc8 v) = v :=
  BitVec.eq_of_toNat_eq (by rw [zext32_toNat, trunc8_toNat]; omega)

theorem packedBlue_toNat : (packedBlue v).toNat = v.toNat % 256 := by
  rw [packedBlue_eq, BitVec.extractLsb'_toNat, Nat.shiftRight_zero]

theorem packedGreen_toNat : (packedGreen v).toNat = v.toNat / 256 % 256 := by
  rw [packedGreen_eq, BitVec.extractLsb'_toNat, Nat.shiftRight_eq_div_pow]

theorem packedRed_toNat : (packedRed v).toNat = v.toNat / 65536 % 256 := by
  rw [packedRed_eq, BitVec.extractLsb'_toNat, Nat.shiftRight_eq_div_pow]

/-- A widened byte has zero in bits 31:8 (`30_encoding.md` R78). -/
theorem zext32_high : (zext32 b).extractLsb' 8 24 = 0x000000#24 := by
  apply BitVec.eq_of_toNat_eq
  rw [BitVec.extractLsb'_toNat, zext32_toNat, Nat.shiftRight_eq_div_pow, Nat.div_eq_of_lt b.isLt]
  rfl

/-- The mask of one byte keeps the number modulo 256. -/
theorem and_byteMask_toNat : (v &&& 0xFF#32).toNat = v.toNat % 256 :=
  Nat.and_two_pow_sub_one_eq_mod v.toNat 8

/-- The mask of three bytes drops the alpha byte (`30_encoding.md` R60). -/
theorem and_alphaMask_toNat : (v &&& 0x00FFFFFF#32).toNat = v.toNat % 16777216 :=
  Nat.and_two_pow_sub_one_eq_mod v.toNat 24

theorem and_alphaMask_of_le {v : Word} (h : v.toNat ≤ 0xFFFFFF) : v &&& 0x00FFFFFF#32 = v :=
  BitVec.eq_of_toNat_eq (by rw [and_alphaMask_toNat]; omega)

/-! ### Splitting a packed value and composing one -/

/-- Shift, then mask (`40_pixel_ops.md` R105). -/
theorem zext32_packedBlue : zext32 (packedBlue v) = v &&& 0xFF#32 :=
  BitVec.eq_of_toNat_eq (by rw [zext32_toNat, packedBlue_toNat, and_byteMask_toNat])

theorem zext32_packedGreen : zext32 (packedGreen v) = (v >>> 8) &&& 0xFF#32 :=
  BitVec.eq_of_toNat_eq (by
    rw [zext32_toNat, packedGreen_toNat, and_byteMask_toNat, BitVec.toNat_ushiftRight, Nat.shiftRight_eq_div_pow])

theorem zext32_packedRed : zext32 (packedRed v) = (v >>> 16) &&& 0xFF#32 :=
  BitVec.eq_of_toNat_eq (by
    rw [zext32_toNat, packedRed_toNat, and_byteMask_toNat, BitVec.toNat_ushiftRight, Nat.shiftRight_eq_div_pow])

/-- A channel shifted to its byte loses no bit. -/
theorem zext32_shiftLeft_toNat {k : Nat} (hk : k ≤ 24) : (zext32 b <<< k).toNat = b.toNat * 2 ^ k := by
  have hlt : b.toNat * 2 ^ k < 2 ^ 32 :=
    Nat.mul_lt_mul_of_lt_of_le (c := 2 ^ 8) (d := 2 ^ 24) b.isLt (Nat.pow_le_pow_right (by decide) hk) (by decide)
  rw [BitVec.toNat_shiftLeft, zext32_toNat, Nat.shiftLeft_eq, Nat.mod_eq_of_lt hlt]

/-- The three fields do not overlap, so the composition by OR is the sum (`40_pixel_ops.md` R106). -/
theorem compose_toNat : (compose r g b).toNat = r.toNat * 65536 + g.toNat * 256 + b.toNat := by
  have hg := g.isLt
  have hb := b.isLt
  have hlow : g.toNat * 2 ^ 8 ||| b.toNat = g.toNat * 2 ^ 8 + b.toNat := by
    rw [← Nat.shiftLeft_eq, Nat.shiftLeft_add_eq_or_of_lt hb]
  have hhigh : r.toNat * 2 ^ 16 ||| (g.toNat * 2 ^ 8 + b.toNat) = r.toNat * 2 ^ 16 + (g.toNat * 2 ^ 8 + b.toNat) := by
    rw [← Nat.shiftLeft_eq r.toNat, Nat.shiftLeft_add_eq_or_of_lt (by omega)]
  rw [compose, BitVec.toNat_or, BitVec.toNat_or, zext32_shiftLeft_toNat r (by decide),
    zext32_shiftLeft_toNat g (by decide), zext32_toNat, Nat.or_assoc, hlow, hhigh]
  omega

theorem compose_toNat_le : (compose r g b).toNat ≤ 0x00FFFFFF := by
  have hr := r.isLt
  have hg := g.isLt
  have hb := b.isLt
  rw [compose_toNat]
  omega

theorem compose_eq_add : compose r g b = (zext32 r <<< 16) + (zext32 g <<< 8) + zext32 b := by
  have hle := compose_toNat_le r g b
  rw [compose_toNat] at hle
  apply BitVec.eq_of_toNat_eq
  rw [compose_toNat, BitVec.toNat_add, BitVec.toNat_add, zext32_shiftLeft_toNat r (by decide),
    zext32_shiftLeft_toNat g (by decide), zext32_toNat]
  omega

/-- Splitting and composing loses the alpha byte and nothing else (`40_pixel_ops.md` R100). -/
theorem compose_packed : compose (packedRed v) (packedGreen v) (packedBlue v) = v &&& 0x00FFFFFF#32 := by
  apply BitVec.eq_of_toNat_eq
  rw [compose_toNat, packedRed_toNat, packedGreen_toNat, packedBlue_toNat, and_alphaMask_toNat]
  omega

@[simp] theorem packedRed_compose : packedRed (compose r g b) = r := by
  have hr := r.isLt
  have hg := g.isLt
  have hb := b.isLt
  apply BitVec.eq_of_toNat_eq
  rw [packedRed_toNat, compose_toNat]
  omega

@[simp] theorem packedGreen_compose : packedGreen (compose r g b) = g := by
  have hg := g.isLt
  have hb := b.isLt
  apply BitVec.eq_of_toNat_eq
  rw [packedGreen_toNat, compose_toNat]
  omega

@[simp] theorem packedBlue_compose : packedBlue (compose r g b) = b := by
  have hb := b.isLt
  apply BitVec.eq_of_toNat_eq
  rw [packedBlue_toNat, compose_toNat]
  omega

end

/-! ### What each operation answers -/

section
variable (v red green blue : Word) (s : State)

theorem exec_createDefault : exec .createDefault s =
    .next { s with red := 0x00#8, green := 0x00#8, blue := 0x00#8, returned := s.returned ++ [.nothing] } := rfl

theorem exec_create : exec (.create red green blue) s =
    .next { s with red := trunc8 red, green := trunc8 green, blue := trunc8 blue,
                   returned := s.returned ++ [.nothing] } := rfl

theorem exec_createFromPacked : exec (.createFromPacked v) s =
    .next { s with red := packedRed v, green := packedGreen v, blue := packedBlue v,
                   returned := s.returned ++ [.nothing] } := rfl

theorem exec_toPacked : exec .toPacked s = .next (s.deliver (.word (compose s.red s.green s.blue))) := rfl

theorem exec_getRed : exec .getRed s = .next (s.deliver (.word (zext32 s.red))) := rfl

theorem exec_getGreen : exec .getGreen s = .next (s.deliver (.word (zext32 s.green))) := rfl

theorem exec_getBlue : exec .getBlue s = .next (s.deliver (.word (zext32 s.blue))) := rfl

theorem exec_setRed : exec (.setRed v) s =
    .next { s with red := trunc8 v, returned := s.returned ++ [.nothing] } := rfl

theorem exec_setGreen : exec (.setGreen v) s =
    .next { s with green := trunc8 v, returned := s.returned ++ [.nothing] } := rfl

theorem exec_setBlue : exec (.setBlue v) s =
    .next { s with blue := trunc8 v, returned := s.returned ++ [.nothing] } := rfl

end

/-! ### The registers and the byte spaces after an operation -/

section
variable {s t : State}

@[simp] theorem State.x_deliver (s : State) (r : Result) (c : Channel) : (s.deliver r).x c = s.x c := by
  cases c <;> rfl

/-- Writing the value a register holds changes nothing. -/
@[simp] theorem State.setX_x (s : State) (c : Channel) : s.setX c (s.x c) = s := by
  cases c <;> rfl

theorem exec_createDefault_pixel (h : exec .createDefault s = .next t) : t.pixel = ⟨0x00#8, 0x00#8, 0x00#8⟩ := by
  cases h
  rfl

/-- A SET with the value its channel holds leaves the Pixel as it was (`40_pixel_ops.md` R97, R98, R99). -/
theorem loadChannel_pixel_of_held {c : Channel} {v : Word} (hv : v.toNat % 256 = (s.x c).toNat)
    (h : loadChannel c v s = .next t) : t.pixel = s.pixel := by
  rw [loadChannel, trunc8_eq_of_mod_eq hv, State.setX_x] at h
  cases h
  rfl

/-- What the GET of another channel returns after a SET: the value of that channel before (`40_pixel_ops.md` R101). -/
theorem returnChannel_after_loadChannel {c d : Channel} (hdc : d ≠ c) {v : Word} (h : loadChannel c v s = .next t) :
    returnChannel d t = .next (t.deliver (.word (zext32 (s.x d)))) := by
  cases h
  rw [returnChannel, State.x_deliver, State.x_setX, if_neg hdc]

/-- TO_PACKED after CREATE_FROM_PACKED returns the operand without its alpha byte (`40_pixel_ops.md` R92, R100). -/
theorem exec_toPacked_after_createFromPacked {v : Word} (h : exec (.createFromPacked v) s = .next t) :
    exec .toPacked t = .next (t.deliver (.word (v &&& 0x00FFFFFF#32))) := by
  cases h
  rw [← compose_packed]
  rfl

/-- CREATE_FROM_PACKED of a composed value loads the Pixel it was composed from (`40_pixel_ops.md` R100). -/
theorem exec_createFromPacked_compose_pixel {u : State}
    (h : exec (.createFromPacked (compose s.red s.green s.blue)) t = .next u) : u.pixel = s.pixel := by
  rw [exec_createFromPacked, packedRed_compose, packedGreen_compose, packedBlue_compose] at h
  cases h
  rfl

/-- No channel depends on the alpha byte. -/
theorem exec_createFromPacked_alpha (v : Word) (s : State) :
    exec (.createFromPacked v) s = exec (.createFromPacked (v &&& 0x00FFFFFF#32)) s := by
  rw [← compose_packed, exec_createFromPacked, exec_createFromPacked, packedRed_compose, packedGreen_compose,
    packedBlue_compose]

theorem exec_zp {i : Instr} (h : exec i s = .next t) : t.zp = s.zp := by
  obtain ⟨t', r, hx, hzp, -⟩ := exec_delivers i s
  cases h.symm.trans hx
  exact hzp

theorem exec_op {i : Instr} (h : exec i s = .next t) : t.op = s.op := by
  obtain ⟨t', r, hx, -, hop, -⟩ := exec_delivers i s
  cases h.symm.trans hx
  exact hop

/-- A reading operation gives the result its registers determine, whatever was returned before, and changes no
register. -/
theorem exec_reading {i : Instr} (hi : i ∈ [Instr.toPacked, Instr.getRed, Instr.getGreen, Instr.getBlue])
    (s : State) :
    ∃ r, ∀ before : List Result,
      exec i { s with returned := before } = .next { s with returned := before ++ [r] } := by
  simp only [List.mem_cons, List.not_mem_nil, or_false] at hi
  obtain rfl | rfl | rfl | rfl := hi
  · exact ⟨.word (compose s.red s.green s.blue), fun _ => exec_toPacked _⟩
  · exact ⟨.word (zext32 s.red), fun _ => exec_getRed _⟩
  · exact ⟨.word (zext32 s.green), fun _ => exec_getGreen _⟩
  · exact ⟨.word (zext32 s.blue), fun _ => exec_getBlue _⟩

end

/-! ### The form of the results, and the invariant -/

section
variable {s t : State}

theorem zext32_toNat_le (b : Byte) : (zext32 b).toNat ≤ 0x00FFFFFF := by
  have hb := b.isLt
  rw [zext32_toNat]
  omega

/-- A buffer is 24 blocks of one length, or empty (`41_encode.md` R123). -/
theorem dvd_length_encodeBuffer (z o : Descriptor) (s : State) : 24 ∣ (encodeBuffer z o s).length := by
  cases h : symbolLength z o with
  | none => simp [encodeBuffer_of_none h]
  | some len => simp [encodeBuffer_of_some h, length_expansion]

/-- The one result an operation adds has the form the spec gives results. -/
theorem exec_result_wellFormed {i : Instr} (h : exec i s = .next t) :
    ∃ r : Result, t.returned = s.returned ++ [r] ∧ r.wellFormed := by
  cases i with
  | createDefault | create | createFromPacked | setRed | setGreen | setBlue =>
    cases h
    exact ⟨.nothing, rfl, trivial⟩
  | toPacked =>
    cases h
    exact ⟨.word _, rfl, compose_toNat_le ..⟩
  | getRed | getGreen | getBlue =>
    cases h
    exact ⟨.word _, rfl, zext32_toNat_le _⟩
  | encode z o =>
    cases h
    exact ⟨.buffer _, rfl, dvd_length_encodeBuffer z o s⟩

/-- An operation keeps the invariant: it writes no byte space and adds one result of the right form. -/
theorem State.Inv.exec {i : Instr} (hs : s.Inv) (h : exec i s = .next t) : t.Inv := by
  obtain ⟨r, hret, hr⟩ := exec_result_wellFormed h
  obtain ⟨hzp, hop, hin, hres⟩ := hs
  rw [← exec_zp h] at hzp
  rw [← exec_op h] at hop
  rw [← exec_inputs h] at hin
  refine ⟨hzp, hop, hin, ?_⟩
  rw [hret, List.forall_mem_append]
  exact ⟨hres, by simpa using hr⟩

/-- The byte spaces of the operation issued next are canonical, so the state it runs in meets the invariant. -/
theorem State.Inv.accept {w : CommandWord} {zp op : Memory} {rest : List Input} (hs : s.Inv)
    (hin : s.inputs = .command w zp op :: rest) : (s.accept zp op rest).Inv := by
  have hall := hs.inputsWf
  rw [hin, List.forall_mem_cons] at hall
  obtain ⟨⟨hzp, hop⟩, hrest⟩ := hall
  exact ⟨hzp, hop, hrest, hs.returnedWf⟩

/-- Reset touches nothing the invariant speaks of but the inputs, of which it is the first. -/
theorem State.Inv.applyReset {rest : List Input} (hs : s.Inv) (hin : s.inputs = .reset :: rest) :
    (State.applyReset { s with inputs := rest }).Inv := by
  have hall := hs.inputsWf
  rw [hin, List.forall_mem_cons] at hall
  obtain ⟨-, hrest⟩ := hall
  exact ⟨hs.zpWf, hs.opWf, hrest, hs.returnedWf⟩

end

/-! ### The statements -/

/-- Settles O46, by the cases of a step. -/
theorem stepKeepsInvariant : Obligations.StepKeepsInvariant := by
  intro s t hs h
  obtain ⟨-, rfl⟩ | ⟨rest, hin, rfl⟩ | ⟨w, zp, op, rest, i, hin, -, hx⟩ := step_cases h
  · exact hs
  · exact hs.applyReset hin
  · exact (hs.accept hin).exec hx

/-- Settles O11, from the bytes a packed value splits into. -/
theorem createFromPackedSplitsValue : Obligations.CreateFromPackedSplitsValue := by
  refine ⟨decode_commandWord_createFromPacked, fun v s => ?_, fun v s t h => ?_, exec_createFromPacked_alpha,
    fun v s t => exec_toPacked_after_createFromPacked⟩
  · rw [exec_createFromPacked, packedRed_eq, packedGreen_eq, packedBlue_eq]
  · cases h
    exact ⟨zext32_packedGreen v, zext32_packedRed v, zext32_packedBlue v⟩

/-- Settles O12: the bytes of RES are read back by splitting what was composed. -/
theorem toPackedComposesChannels : Obligations.ToPackedComposesChannels := by
  refine ⟨decode_commandWord_toPacked, fun s => ?_⟩
  have hle := compose_toNat_le s.red s.green s.blue
  refine ⟨compose s.red s.green s.blue, exec_toPacked s, rfl, ?_, ?_, ?_, ?_, compose_toNat .., hle⟩
  · apply BitVec.eq_of_toNat_eq
    rw [BitVec.extractLsb'_toNat, Nat.shiftRight_eq_div_pow, Nat.div_eq_of_lt (by omega)]
    rfl
  · rw [← packedRed_eq, packedRed_compose]
  · rw [← packedGreen_eq, packedGreen_compose]
  · rw [← packedBlue_eq, packedBlue_compose]

/-- Settles O15, from splitting after composing and composing after splitting. -/
theorem packedRoundTrip : Obligations.PackedRoundTrip := by
  refine ⟨fun v s => ?_, fun v s hv => ?_, fun s => ?_⟩
  · exact ⟨_, exec_createFromPacked v s, exec_toPacked_after_createFromPacked (exec_createFromPacked v s)⟩
  · have hpack := exec_toPacked_after_createFromPacked (exec_createFromPacked v s)
    rw [and_alphaMask_of_le hv] at hpack
    exact ⟨_, exec_createFromPacked v s, hpack⟩
  · have hload := exec_createFromPacked (compose s.red s.green s.blue)
      (s.deliver (.word (compose s.red s.green s.blue)))
    exact ⟨_, _, _, exec_toPacked s, rfl, hload, exec_createFromPacked_compose_pixel hload⟩

/-- Settles O20: each byte of a packed value, as a masked word and as a number, and their composition. -/
theorem extractionShiftsThenMasks : Obligations.ExtractionShiftsThenMasks := fun v =>
  ⟨zext32_packedBlue v, packedBlue_toNat v, zext32_packedGreen v, packedGreen_toNat v, zext32_packedRed v,
    packedRed_toNat v, compose_packed v⟩

/-- Settles O21, from the composition as a number: no field reaches into the next. -/
theorem compositionFieldsAreDisjoint : Obligations.CompositionFieldsAreDisjoint := fun r g b =>
  ⟨compose_eq_add r g b, compose_toNat r g b, compose_toNat_le r g b⟩

/-- Settles O9: the Pixel after CREATE_DEFAULT does not depend on the state before it. -/
theorem createDefaultClearsPixel : Obligations.CreateDefaultClearsPixel :=
  ⟨decode_commandWord_createDefault, exec_createDefault,
    fun _ _ _ ht hu => (exec_createDefault_pixel hu).trans (exec_createDefault_pixel ht).symm,
    fun _ _ => exec_createDefault_pixel⟩

/-- Settles O10, from the narrowing of each operand. -/
theorem createLoadsLowBytes : Obligations.CreateLoadsLowBytes := by
  refine ⟨decode_commandWord_create, exec_create, fun a b c s t h => ?_⟩
  cases h
  exact ⟨trunc8_toNat a, trunc8_toNat b, trunc8_toNat c⟩

/-- Settles O13: the two parts of a widened channel. -/
theorem accessorsReturnChannels : Obligations.AccessorsReturnChannels :=
  ⟨fun a b c =>
      ⟨decode_commandWord_getRed a b c, decode_commandWord_getGreen a b c, decode_commandWord_getBlue a b c⟩,
    fun s => ⟨_, exec_getRed s, trunc8_zext32 _, zext32_high _⟩,
    fun s => ⟨_, exec_getGreen s, trunc8_zext32 _, zext32_high _⟩,
    fun s => ⟨_, exec_getBlue s, trunc8_zext32 _, zext32_high _⟩⟩

/-- Settles O14; a SET with the value held writes back what it reads. -/
theorem mutatorsWriteOneChannel : Obligations.MutatorsWriteOneChannel :=
  ⟨fun a b c =>
      ⟨decode_commandWord_setRed a b c, decode_commandWord_setGreen a b c, decode_commandWord_setBlue a b c⟩,
    exec_setRed, exec_setGreen, exec_setBlue,
    fun _ _ _ => ⟨loadChannel_pixel_of_held (c := .red), loadChannel_pixel_of_held (c := .green),
      loadChannel_pixel_of_held (c := .blue)⟩⟩

/-- Settles O16: CREATE narrows what was widened, and a SET leaves the channels that are not its own. -/
theorem channelsAreIndependent : Obligations.ChannelsAreIndependent := by
  refine ⟨fun r g b s => ?_, fun v s => ?_, fun v s => ?_, fun v s => ?_⟩
  · have hcreate := exec_create (zext32 r) (zext32 g) (zext32 b) s
    rw [trunc8_zext32, trunc8_zext32, trunc8_zext32] at hcreate
    exact ⟨_, hcreate, exec_getRed _, exec_getGreen _, exec_getBlue _⟩
  · have hset := exec_setRed v s
    exact ⟨_, hset, _, _, exec_getGreen s, returnChannel_after_loadChannel (d := .green) (by decide) hset,
      exec_getBlue s, returnChannel_after_loadChannel (d := .blue) (by decide) hset⟩
  · have hset := exec_setGreen v s
    exact ⟨_, hset, _, _, exec_getRed s, returnChannel_after_loadChannel (d := .red) (by decide) hset,
      exec_getBlue s, returnChannel_after_loadChannel (d := .blue) (by decide) hset⟩
  · have hset := exec_setBlue v s
    exact ⟨_, hset, _, _, exec_getRed s, returnChannel_after_loadChannel (d := .red) (by decide) hset,
      exec_getGreen s, returnChannel_after_loadChannel (d := .green) (by decide) hset⟩

/-- Settles O17: no operation at all has an error condition. -/
theorem pixelOperationsNeverFail : Obligations.PixelOperationsNeverFail := fun i s _ =>
  everyOperationCompletes.1 i s

/-- Settles O18, from what every operation leaves alone and what the reading ones read. -/
theorem pixelOperationsFrame : Obligations.PixelOperationsFrame := by
  refine ⟨fun i s t _ h => ?_, fun v s t h => ?_, fun v s t h => ?_, fun v s t h => ?_, fun i s t u hi ht hu => ?_⟩
  · obtain ⟨r, hret, -⟩ := exec_appends_result h
    have hzp := exec_zp h
    have hop := exec_op h
    exact ⟨hzp, hop, exec_inputs h, ⟨r, hret⟩, fun a => ⟨by rw [hzp], by rw [hop]⟩⟩
  · cases h
    exact ⟨rfl, rfl⟩
  · cases h
    exact ⟨rfl, rfl⟩
  · cases h
    exact ⟨rfl, rfl⟩
  · obtain ⟨r, hread⟩ := exec_reading hi s
    cases ht.symm.trans (hread s.returned)
    cases hu.symm.trans (hread (s.returned ++ [r]))
    exact ⟨rfl, rfl, rfl, r, rfl, List.append_assoc ..⟩

/-- Settles O19, from narrowing as a number. -/
theorem narrowingWraps : Obligations.NarrowingWraps := fun v =>
  ⟨trunc8_toNat v, trunc8_zext32 (trunc8 v), zext32_trunc8_of_le⟩

end Sys2Proof.Machine

/-! ENCODE as a whole: the machine's loops against the abstract transform, what a buffer depends on, and the corner cases
(`41_encode.md` R123, R126, R128 to R134, section 6). -/

namespace Sys2Proof.Machine

/-! ### What a completed ENCODE tells -/

section
variable {z o : Descriptor} {s t : State}

/-- The buffer an ENCODE is seen to return is the one its loops wrote. -/
theorem buffer_eq_encodeBuffer {out : List Byte} (h : exec (.encode z o) s = .next t)
    (hret : t.returned = s.returned ++ [.buffer out]) : out = encodeBuffer z o s := by
  cases h
  simpa using hret.symm

/-- ENCODE writes OUT only: the state after it differs in the results returned, and nowhere else (R129, R131, R132). -/
theorem eq_of_exec_encode (h : exec (.encode z o) s = .next t) : t = { s with returned := t.returned } := by
  cases h
  rfl

end

/-! ### The write position -/

theorem expandBit_wp (zp op : Memory) (len : Nat) (ch : Byte) (c : Cursor) (n : Nat) :
    (expandBit zp op len ch c n).wp = c.wp + len := rfl

/-- Each bit copy advances the write position by the pattern length (`41_encode.md` R128). -/
theorem foldl_expandBit_wp (zp op : Memory) (len : Nat) (bits : List (Byte × Nat)) (c : Cursor) :
    (bits.foldl (fun c bit => expandBit zp op len bit.1 c bit.2) c).wp = c.wp + bits.length * len := by
  induction bits generalizing c with
  | nil => simp
  | cons bit bits ih =>
    rw [List.foldl_cons, ih, expandBit_wp, List.length_cons, Nat.succ_mul]
    omega

/-- The nested loops of R129 as one loop over the pairs of a channel value and a bit number. -/
theorem foldl_expandBit_eq_expandPixel (s : State) (len : Nat) :
    (wireOrder.flatMap (fun ch => bitOrder.map (fun n => (s.x ch, n)))).foldl
      (fun c bit => expandBit s.zp s.op len bit.1 c bit.2) { wp := 0, out := [] } = expandPixel s len := by
  simp only [List.foldl_flatMap, List.foldl_map]
  rfl

/-! ### The loops and the abstract transform -/

/-- The patterns that two descriptors spell are valid exactly when the descriptors' lengths make ENCODE valid
(`41_encode.md` R121); the bytes play no part. -/
theorem validPatterns_patternOf_iff (z o : Descriptor) (zp op : Memory) :
    validPatterns (patternOf z zp) (patternOf o op) = true ↔ ∃ len, symbolLength z o = some len := by
  simp only [symbolLength_eq_some_iff]
  cases z with
  | absent => cases o <;> simp [patternOf, validPatterns]
  | present lz =>
    cases o with
    | absent => simp [patternOf, validPatterns]
    | present lo =>
      simp only [patternOf, validPatterns, Memory.bytes_length, Bool.and_eq_true, decide_eq_true_eq,
        Descriptor.present.injEq]
      constructor
      · rintro ⟨⟨hz, -⟩, heq⟩
        exact ⟨lz, hz, rfl, heq.symm⟩
      · rintro ⟨len, hlen, rfl, rfl⟩
        exact ⟨⟨hlen, hlen⟩, rfl⟩

/-- The buffer the loops write is the transform of the Pixel and the two patterns that are spelled (R129). -/
theorem encodeBuffer_eq_transform (z o : Descriptor) (s : State) :
    encodeBuffer z o s = transform s.pixel (patternOf z s.zp) (patternOf o s.op) := by
  have hvalid := validPatterns_patternOf_iff z o s.zp s.op
  cases h : symbolLength z o with
  | none => rw [encodeBuffer_of_none h, transform, if_neg (by simp [hvalid, h])]
  | some len =>
    rw [encodeBuffer_of_some h, transform, if_pos (hvalid.2 ⟨len, h⟩)]
    obtain ⟨-, rfl, rfl⟩ := symbolLength_eq_some_iff.1 h
    rfl

theorem exec_encode_transform (z o : Descriptor) (s : State) :
    exec (.encode z o) s =
      .next (s.deliver (.buffer (transform s.pixel (patternOf z s.zp) (patternOf o s.op)))) := by
  rw [exec_encode, encodeBuffer_eq_transform]
  rfl

/-! ### A frame of equal blocks -/

/-- When every serial bit selects the same symbol, the expansion is that symbol 24 times. -/
theorem expansion_eq_replicate {p : Pixel} {zero one bs : List Byte}
    (h : ∀ b ∈ p.serialFrame, symbol zero one b = bs) :
    expansion p zero one = (List.replicate 24 bs).flatten := by
  rw [expansion, List.flatMap_def, List.map_congr_left h, List.map_const', p.serialFrame_length]

theorem serialFrame_black : ∀ b ∈ Pixel.serialFrame ⟨0x00#8, 0x00#8, 0x00#8⟩, b = false := by decide

theorem serialFrame_white : ∀ b ∈ Pixel.serialFrame ⟨0xFF#8, 0xFF#8, 0xFF#8⟩, b = true := by decide

theorem symbol_false (zero one : List Byte) : symbol zero one false = zero := rfl

theorem symbol_true (zero one : List Byte) : symbol zero one true = one := rfl

theorem symbol_self (bs : List Byte) (b : Bool) : symbol bs bs b = bs := ite_self bs

/-! ### Complemented channels -/

/-- The Pixel with every bit of every channel turned over. -/
def Pixel.complement (p : Pixel) : Pixel :=
  { red := p.red ^^^ 0xFF#8, green := p.green ^^^ 0xFF#8, blue := p.blue ^^^ 0xFF#8 }

theorem getLsbD_xor_ones (ch : Byte) {n : Nat} (hn : n < 8) : (ch ^^^ 0xFF#8).getLsbD n = !ch.getLsbD n := by
  rw [show 0xFF#8 = BitVec.allOnes 8 from rfl, BitVec.getLsbD_xor, BitVec.getLsbD_allOnes, decide_eq_true hn,
    Bool.xor_true]

theorem Pixel.serialBit_complement (p : Pixel) {k : Nat} (hk : k < 24) :
    p.complement.serialBit k = !p.serialBit k := by
  obtain ⟨m, hm, rfl | rfl | rfl⟩ := serialIndex_cases hk
  · rw [Pixel.serialBit_green _ hm, Pixel.serialBit_green _ hm]
    exact getLsbD_xor_ones p.green (by omega)
  · rw [Pixel.serialBit_red _ hm, Pixel.serialBit_red _ hm]
    exact getLsbD_xor_ones p.red (by omega)
  · rw [Pixel.serialBit_blue _ hm, Pixel.serialBit_blue _ hm]
    exact getLsbD_xor_ones p.blue (by omega)

theorem Pixel.serialFrame_complement (p : Pixel) : p.complement.serialFrame = p.serialFrame.map not := by
  rw [Pixel.serialFrame, Pixel.serialFrame, List.map_map]
  exact List.map_congr_left fun k hk => p.serialBit_complement (List.mem_range.1 hk)

theorem symbol_not (zero one : List Byte) (b : Bool) : symbol one zero (!b) = symbol zero one b := by
  cases b <;> rfl

/-- Each bit of the complemented frame selects, from the swapped patterns, the symbol it selected before. -/
theorem expansion_complement_swap (p : Pixel) (zero one : List Byte) :
    expansion p.complement one zero = expansion p zero one := by
  simp only [expansion, p.serialFrame_complement, List.flatMap_map, symbol_not]

theorem validPatterns_comm (zero one : Pattern) : validPatterns one zero = validPatterns zero one := by
  cases zero with
  | none => cases one <;> rfl
  | some z =>
    cases one with
    | none => rfl
    | some o => simp only [validPatterns, Bool.and_comm (decide (1 ≤ o.length)), eq_comm (a := o.length)]

theorem transform_complement_swap (p : Pixel) (zero one : Pattern) :
    transform p.complement one zero = transform p zero one := by
  rw [transform, transform, validPatterns_comm, expansion_complement_swap]

/-! ### Patterns that differ -/

/-- The frame word loses nothing: it holds each channel in a byte of its own (`30_encoding.md` R64). -/
theorem Pixel.eq_of_frameWord_eq {p q : Pixel} (h : p.frameWord = q.frameWord) : p = q := by
  have hnum := congrArg BitVec.toNat h
  obtain ⟨r, g, b⟩ := p
  obtain ⟨r', g', b'⟩ := q
  simp only [Pixel.frameWord_toNat] at hnum
  rw [Pixel.mk.injEq, ← BitVec.toNat_inj, ← BitVec.toNat_inj, ← BitVec.toNat_inj]
  have := r.isLt
  have := r'.isLt
  have := b.isLt
  have := b'.isLt
  omega

/-- The 24 serial bits determine the Pixel: they are the bits of the frame word. -/
theorem Pixel.eq_of_serialBit_eq {p q : Pixel} (h : ∀ k < 24, p.serialBit k = q.serialBit k) : p = q :=
  Pixel.eq_of_frameWord_eq <| BitVec.eq_of_getLsbD_eq fun n hn => by
    have hbit := h (23 - n) (by omega)
    rwa [p.serialBit_eq_frameWord (by omega), q.serialBit_eq_frameWord (by omega),
      Nat.sub_sub_self (by omega)] at hbit

/-- Block `k` of the expansion shows which of two different symbols was copied, and so serial bit `k`. -/
theorem serialBit_eq_of_expansion_eq {p q : Pixel} {zp op : Memory} {len k : Nat} (hk : k < 24)
    (hne : Memory.bytes zp len ≠ Memory.bytes op len)
    (h : expansion p (Memory.bytes zp len) (Memory.bytes op len) =
      expansion q (Memory.bytes zp len) (Memory.bytes op len)) : p.serialBit k = q.serialBit k := by
  have hblock : Memory.bytes (if p.serialBit k then op else zp) len =
      Memory.bytes (if q.serialBit k then op else zp) len :=
    List.map_congr_left fun j hj => by
      have hj := List.mem_range.1 hj
      rw [← Option.some_inj, ← getElem?_expansion p zp op hk hj, h, getElem?_expansion q zp op hk hj]
  rw [← symbol_bytes, ← symbol_bytes] at hblock
  exact (Bool.injective_iff (f := symbol (Memory.bytes zp len) (Memory.bytes op len))).2 hne hblock

/-! ### The statements -/

/-- Settles O31. -/
theorem encodeRefinesTransform : Obligations.EncodeRefinesTransform := exec_encode_transform

/-- Settles O24: a buffer has a third length for no pair of descriptors, as each pair is valid at one length or
degenerate. -/
theorem encodedLength : Obligations.EncodedLength := by
  refine ⟨fun len s hlen => ?_, fun z o s => ⟨_, exec_encode z o s, ?_⟩⟩
  · refine ⟨_, exec_encode_present hlen s, length_expansion .., ?_⟩
    rw [length_expansion]
    omega
  · cases h : symbolLength z o with
    | none => exact .inl (by rw [encodeBuffer_of_none h, List.length_nil])
    | some len =>
      obtain ⟨hlen, hz, ho⟩ := symbolLength_eq_some_iff.1 h
      exact .inr ⟨len, hlen, hz, ho, by rw [encodeBuffer_of_some h, length_expansion]⟩

/-- Settles O29: block `k` is the pattern that serial bit `k` selects. -/
theorem blockDependsOnOneBit : Obligations.BlockDependsOnOneBit := by
  refine ⟨fun ch n hn => ⟨by rw [bitSet_eq ch hn], bne_iff_ne⟩, ?_⟩
  intro len k j s s' t t' out out' hk hj hzp hop hbit hx hret hx' hret'
  have hlen : symbolLength (.present len) (.present len) = some len :=
    symbolLength_eq_some_iff.2 ⟨by omega, rfl, rfl⟩
  rw [buffer_eq_encodeBuffer hx hret, buffer_eq_encodeBuffer hx' hret', encodeBuffer_of_some hlen,
    encodeBuffer_of_some hlen, getElem?_expansion _ _ _ hk hj, getElem?_expansion _ _ _ hk hj, hbit, hzp, hop]

/-- Settles O30, by induction on the copies done (`foldl_expandBit_wp`). -/
theorem writePositionAdvances : Obligations.WritePositionAdvances := by
  intro s len
  refine ⟨fun k hk => ?_, foldl_expandBit_eq_expandPixel s len, ?_⟩
  · have hcount : (wireOrder.flatMap (fun ch => bitOrder.map (fun n => (s.x ch, n)))).length = 24 := rfl
    rw [foldl_expandBit_wp, List.length_take, hcount, Nat.min_eq_left hk, Nat.zero_add]
  · obtain ⟨-, hwp, -⟩ := expandPixel_spec s len
    exact hwp

/-- Settles O33: the transform has no argument but the Pixel and the two patterns. -/
theorem encodeIsPure : Obligations.EncodeIsPure := by
  intro z o z' o' s s' hp hz ho
  refine ⟨_, exec_encode_transform z o s, ?_⟩
  rw [exec_encode_transform, hp, hz, ho]

/-- Settles O34: in (a), (b) and (c) all 24 blocks are one symbol, in (d) each block is one byte. -/
theorem encodeUniformCorners : Obligations.EncodeUniformCorners := by
  refine ⟨fun len s hlen hp => ?_, fun len s hlen hp => ?_, fun len s hlen heq => ?_, fun s => ?_⟩
  · rw [exec_encode_present hlen, hp, expansion_eq_replicate fun b hb => by rw [serialFrame_black b hb, symbol_false]]
    rfl
  · rw [exec_encode_present hlen, hp, expansion_eq_replicate fun b hb => by rw [serialFrame_white b hb, symbol_true]]
    rfl
  · rw [exec_encode_present hlen, ← heq, expansion_eq_replicate fun b _ => symbol_self _ b]
    rfl
  · refine ⟨_, exec_encode_present (Nat.le_refl 1) s, length_expansion .., fun k hk => ?_⟩
    have hbyte := getElem?_expansion s.pixel s.zp s.op hk Nat.one_pos
    rwa [Nat.mul_one, Nat.add_zero] at hbyte

/-- Settles O35, from the same law of the transform. -/
theorem encodeSwapComplements : Obligations.EncodeSwapComplements := by
  intro z o s
  refine ⟨_, exec_encode_transform z o s, fun s' hred hgreen hblue hzp hop => ?_⟩
  have hp : s'.pixel = s.pixel.complement := by
    rw [State.pixel, hred, hgreen, hblue]
    rfl
  rw [exec_encode_transform, hp, hzp, hop, transform_complement_swap]

/-- Settles O36: two different patterns show every serial bit, and the serial bits show the Pixel. -/
theorem encodeLosesNoInformation : Obligations.EncodeLosesNoInformation := by
  intro len s s' hlen hzp hop hne
  refine ⟨_, _, exec_encode_present hlen s, exec_encode_present hlen s', ?_⟩
  rw [← hzp, ← hop]
  constructor
  · exact fun h => Pixel.eq_of_serialBit_eq fun k hk => serialBit_eq_of_expansion_eq hk hne h
  · exact fun hp => by rw [hp]

/-- Settles O37: a degenerate ENCODE adds an entry to the results, which no operation reads (`exec_appends_result`). -/
theorem degenerateEncodeLeavesNoTrace : Obligations.DegenerateEncodeLeavesNoTrace := by
  intro z o i s t u u' hx hret hu hu'
  obtain ⟨r, hr, hsame⟩ := exec_appends_result hu'
  have ht : t = { s with returned := s.returned ++ [.buffer []] } := hret ▸ eq_of_exec_encode hx
  rw [ht, hsame] at hu
  cases hu
  exact ⟨rfl, r, List.append_assoc .., hr⟩

/-- Settles O32. -/
theorem encodeFrame : Obligations.EncodeFrame := by
  intro z o s t h
  rw [exec_encode] at h
  cases h
  exact ⟨rfl, rfl, rfl, rfl, rfl, rfl, fun _ => ⟨rfl, rfl⟩, _, rfl⟩

end Sys2Proof.Machine

/-! The command word: what the decoder reads from what the assembler wrote, which bits it ignores, and the words it
refuses (`30_encoding.md` sections 4 to 8). -/

namespace Sys2Proof

/-! ### Pattern descriptors -/

section
variable {d : Word}

theorem decodeDescriptor_of_absent (h : d.getLsbD 31 = false) : decodeDescriptor d = .absent := by
  rw [decodeDescriptor, h, if_neg Bool.false_ne_true]

theorem decodeDescriptor_of_present (h : d.getLsbD 31 = true) :
    decodeDescriptor d = .present (d.extractLsb' 0 31).toNat := by
  rw [decodeDescriptor, if_pos h]

/-- A descriptor as a number: `present` weighs 2^31, and the length is the rest (`30_encoding.md` R73). -/
theorem decodeDescriptor_eq_ite (d : Word) :
    decodeDescriptor d = if 2 ^ 31 ≤ d.toNat then .present (d.toNat - 2 ^ 31) else .absent := by
  have hbit : d.getLsbD 31 = decide (2 ^ 31 ≤ d.toNat) := d.msb_eq_getLsbD_last ▸ d.msb_eq_decide
  have hlt := d.isLt
  by_cases h : 2 ^ 31 ≤ d.toNat
  · rw [if_pos h, decodeDescriptor_of_present (hbit.trans (decide_eq_true h)), BitVec.extractLsb'_toNat,
      Nat.shiftRight_zero]
    exact congrArg Descriptor.present (by omega)
  · rw [if_neg h, decodeDescriptor_of_absent (hbit.trans (decide_eq_false h))]

end

/-! ### The decoder and the assembler -/

theorem decode_commandWord_encode (a b c : Word) :
    decode (commandWord 0xA#4 a b c) = .ok (.encode (decodeDescriptor a) (decodeDescriptor b)) := by
  simp [decode]

/-- The descriptors of a decoded ENCODE are those of the fields `A` and `B`. -/
theorem descriptors_of_decode {w : CommandWord} {z o : Descriptor} (h : decode w = .ok (.encode z o)) :
    z = decodeDescriptor (aField w) ∧ o = decodeDescriptor (bField w) := by
  unfold decode at h
  split at h <;> cases h
  exact ⟨rfl, rfl⟩

/-- The length field bounds what a descriptor can spell; every other operand is legal (`30_encoding.md` R74). -/
theorem decode_wellFormed {w : CommandWord} {i : Instr} (h : decode w = .ok i) : WellFormed i := by
  cases i with
  | encode z o =>
    obtain ⟨rfl, rfl⟩ := descriptors_of_decode h
    exact Bool.and_eq_true_iff.2 ⟨decodeDescriptor_wellFormed _, decodeDescriptor_wellFormed _⟩
  | createDefault | create | createFromPacked | toPacked | getRed | getGreen | getBlue | setRed | setGreen
  | setBlue => rfl

theorem decode_encode {i : Instr} (h : WellFormed i) : decode (encode i) = .ok i := by
  cases i with
  | createDefault => exact decode_commandWord_createDefault ..
  | create => exact decode_commandWord_create ..
  | createFromPacked => exact decode_commandWord_createFromPacked ..
  | toPacked => exact decode_commandWord_toPacked ..
  | getRed => exact decode_commandWord_getRed ..
  | getGreen => exact decode_commandWord_getGreen ..
  | getBlue => exact decode_commandWord_getBlue ..
  | setRed => exact decode_commandWord_setRed ..
  | setGreen => exact decode_commandWord_setGreen ..
  | setBlue => exact decode_commandWord_setBlue ..
  | encode z o =>
    obtain ⟨hz, ho⟩ := Bool.and_eq_true_iff.1 h
    refine (decode_commandWord_encode ..).trans ?_
    rw [decodeDescriptor_encodeDescriptor hz, decodeDescriptor_encodeDescriptor ho]

/-! ### Operand fields that the decoder ignores -/

section
variable {op : BitVec 4} (a b c a' b' c' : Word)

/-- CREATE_DEFAULT and the reading operations but ENCODE have no operand (`30_encoding.md` R70, R71). -/
theorem decode_ignores_operands (h : op ∈ [0x0#4, 0x3#4, 0x4#4, 0x5#4, 0x6#4]) :
    decode (commandWord op a b c) = decode (commandWord op a' b' c') := by
  simp only [List.mem_cons, List.not_mem_nil, or_false] at h
  obtain rfl | rfl | rfl | rfl | rfl := h
  · rw [decode_commandWord_createDefault, decode_commandWord_createDefault]
  · rw [decode_commandWord_toPacked, decode_commandWord_toPacked]
  · rw [decode_commandWord_getRed, decode_commandWord_getRed]
  · rw [decode_commandWord_getGreen, decode_commandWord_getGreen]
  · rw [decode_commandWord_getBlue, decode_commandWord_getBlue]

/-- CREATE_FROM_PACKED and the SET operations have the operand `A` alone. -/
theorem decode_ignores_b_c (h : op ∈ [0x2#4, 0x7#4, 0x8#4, 0x9#4]) :
    decode (commandWord op a b c) = decode (commandWord op a b' c') := by
  simp only [List.mem_cons, List.not_mem_nil, or_false] at h
  obtain rfl | rfl | rfl | rfl := h
  · rw [decode_commandWord_createFromPacked, decode_commandWord_createFromPacked]
  · rw [decode_commandWord_setRed, decode_commandWord_setRed]
  · rw [decode_commandWord_setGreen, decode_commandWord_setGreen]
  · rw [decode_commandWord_setBlue, decode_commandWord_setBlue]

end

end Sys2Proof

namespace Sys2Proof.Machine

/-! ### Operand bits that an operation ignores -/

section
variable {v v' : Word}

theorem trunc8_congr (h : v.toNat % 256 = v'.toNat % 256) : trunc8 v = trunc8 v' :=
  trunc8_eq_of_mod_eq (h.trans (trunc8_toNat v').symm)

theorem and_alphaMask_congr (h : v.toNat % 2 ^ 24 = v'.toNat % 2 ^ 24) :
    v &&& 0x00FFFFFF#32 = v' &&& 0x00FFFFFF#32 :=
  BitVec.eq_of_toNat_eq ((and_alphaMask_toNat v).trans (h.trans (and_alphaMask_toNat v').symm))

end

/-! ### A refused command -/

theorem step_of_inputs_rejected {s : State} {w : CommandWord} {zp op : Memory} {rest : List Input} {why : DecodeError}
    (hin : s.inputs = .command w zp op :: rest) (hd : decode w = .error why) :
    step s = .refused (refusalOf why) := by
  simp only [step, fetch, hin, hd]

/-! ### Patterns as descriptors and byte spaces -/

theorem Pattern.space_wf (p : Pattern) : Memory.wf (Pattern.space p) := by
  cases p with
  | none => exact Memory.wf_nil
  | some bs => exact Memory.ofBytes_wf bs

theorem patternOf_descriptor_space (p : Pattern) : patternOf (Pattern.descriptor p) (Pattern.space p) = p := by
  cases p with
  | none => rfl
  | some bs => exact congrArg some (Memory.bytes_ofBytes bs)

/-! ### The statements -/

/-- Settles O1: each field is read back from the word, and each descriptor from its field. -/
theorem decodeEncodeRoundTrip : Obligations.DecodeEncodeRoundTrip := fun _ => decode_encode

/-- Settles O2, from the bound on the length field and the round trip. -/
theorem decodedOperationsAreWellFormed : Obligations.DecodedOperationsAreWellFormed := fun _ _ h =>
  ⟨decode_wellFormed h, decode_encode (decode_wellFormed h)⟩

/-- Settles O3, one opcode at a time. -/
theorem opcodeTableDecodes : Obligations.OpcodeTableDecodes := fun a b c =>
  ⟨decode_commandWord_createDefault a b c, decode_commandWord_create a b c, decode_commandWord_createFromPacked a b c,
    decode_commandWord_toPacked a b c, decode_commandWord_getRed a b c, decode_commandWord_getGreen a b c,
    decode_commandWord_getBlue a b c, decode_commandWord_setRed a b c, decode_commandWord_setGreen a b c,
    decode_commandWord_setBlue a b c, decodeDescriptor a, decodeDescriptor b, decode_commandWord_encode a b c,
    decodeDescriptor_eq_ite a, decodeDescriptor_eq_ite b⟩

/-- Settles O4: ignored fields and absent descriptors at the decoder, narrowed operands in the operations, and the fields
the assembler leaves at zero. -/
theorem ignoredBitsHaveNoEffect : Obligations.IgnoredBitsHaveNoEffect := by
  refine ⟨fun op a b c a' b' c' => decode_ignores_operands a b c a' b' c',
    fun op a b c b' c' => decode_ignores_b_c a b c b' c', fun a b c c' => ?_, fun a a' b c ha ha' => ?_,
    fun a b b' c hb hb' => ?_, fun r g b r' g' b' s hr hg hb => ?_, fun v v' s h => ?_, fun v v' s h => ?_,
    fun z o => cField_commandWord .., fun d => ⟨bField_commandWord .., aField_commandWord ..⟩, fun v => ?_,
    fun i hi => ?_⟩
  · rw [decode_commandWord_encode, decode_commandWord_encode]
  · rw [decode_commandWord_encode, decode_commandWord_encode, decodeDescriptor_of_absent ha,
      decodeDescriptor_of_absent ha']
  · rw [decode_commandWord_encode, decode_commandWord_encode, decodeDescriptor_of_absent hb,
      decodeDescriptor_of_absent hb']
  · rw [exec_create, exec_create, trunc8_congr hr, trunc8_congr hg, trunc8_congr hb]
  · rw [exec_setRed, exec_setRed, exec_setGreen, exec_setGreen, exec_setBlue, exec_setBlue, trunc8_congr h]
    exact ⟨rfl, rfl, rfl⟩
  · rw [exec_createFromPacked_alpha v, exec_createFromPacked_alpha v', and_alphaMask_congr h]
  · simp [encode]
  · simp only [List.mem_cons, List.not_mem_nil, or_false] at hi
    obtain rfl | rfl | rfl | rfl | rfl := hi <;>
      exact ⟨aField_commandWord .., bField_commandWord .., cField_commandWord ..⟩

/-- Settles O5, by the two cases of the decoder. -/
theorem reservedOpcodesRefused : Obligations.ReservedOpcodesRefused := by
  intro s w zp op rest hin
  obtain ⟨i, hd, hop⟩ | ⟨hd, hop⟩ := decode_cases w
  · obtain ⟨t, r, hx, -⟩ := exec_delivers i (s.accept zp op rest)
    exact ⟨fun h => by omega, fun _ => ⟨t, (step_of_inputs_command hin hd).trans hx⟩⟩
  · exact ⟨fun _ => ⟨hd, step_of_inputs_rejected hin hd⟩, fun h => by omega⟩

/-- Settles O6, by running the decoder on the nine words. -/
theorem workedEncodingsDecode : Obligations.WorkedEncodingsDecode := by
  unfold Obligations.WorkedEncodingsDecode
  decide

/-- Settles O7: the pseudo-operations are other names for the same operations. -/
theorem pseudoOperationsShareWords : Obligations.PseudoOperationsShareWords := fun _ => ⟨rfl, rfl, rfl, rfl⟩

/-- Settles O8, from reading back what was laid out. -/
theorem patternOperandsAreSpelled : Obligations.PatternOperandsAreSpelled := fun p =>
  ⟨patternOf_descriptor_space p, Pattern.space_wf p⟩

end Sys2Proof.Machine

/-! One step and the registers: which operations write which register, what the reading operations leave, and what reset
gives (`10_state.md` R13, `20_memory.md` R43, `70_reset_and_hazards.md` section 1). -/

namespace Sys2Proof.Machine

/-! ### Which operations write a register -/

section
variable {s t : State} {c d : Channel}

/-- The SET operation of a channel register. -/
def setInstr : Channel → Word → Instr
  | .red, v => .setRed v
  | .green, v => .setGreen v
  | .blue, v => .setBlue v

theorem exec_setInstr (c : Channel) (v : Word) (s : State) : exec (setInstr c v) s = loadChannel c v s := by
  cases c <;> rfl

/-- A SET changes no register but its own. -/
theorem channel_eq_of_loadChannel_ne {v : Word} (h : loadChannel d v s = .next t) (hne : t.x c ≠ s.x c) : d = c := by
  by_contra hdc
  cases h
  exact hne (by rw [State.x_deliver, State.x_setX, if_neg (Ne.symm hdc)])

/-- The "written by" column of `10_state.md` section 1, for a register named by its channel. -/
theorem writer_of_exec_x_ne {i : Instr} (h : exec i s = .next t) (hne : t.x c ≠ s.x c) :
    i = .createDefault ∨ (∃ r g b, i = .create r g b) ∨ (∃ v, i = .createFromPacked v) ∨ ∃ v, i = setInstr c v := by
  cases i with
  | createDefault => exact .inl rfl
  | create r g b => exact .inr (.inl ⟨r, g, b, rfl⟩)
  | createFromPacked v => exact .inr (.inr (.inl ⟨v, rfl⟩))
  | setRed v =>
    obtain rfl := channel_eq_of_loadChannel_ne (d := .red) h hne
    exact .inr (.inr (.inr ⟨v, rfl⟩))
  | setGreen v =>
    obtain rfl := channel_eq_of_loadChannel_ne (d := .green) h hne
    exact .inr (.inr (.inr ⟨v, rfl⟩))
  | setBlue v =>
    obtain rfl := channel_eq_of_loadChannel_ne (d := .blue) h hne
    exact .inr (.inr (.inr ⟨v, rfl⟩))
  | toPacked | getRed | getGreen | getBlue | encode =>
    cases h
    exact absurd (State.x_deliver ..) hne

end

/-! ### The reading operations, ENCODE among them -/

/-- A reading operation adds the result its Pixel and byte spaces determine, whatever was returned before, and changes
nothing else (`20_memory.md` R43). -/
theorem exec_reading_or_encode {i : Instr}
    (hi : i ∈ [Instr.toPacked, Instr.getRed, Instr.getGreen, Instr.getBlue] ∨ ∃ z o, i = .encode z o) (s : State) :
    ∃ r, ∀ before : List Result,
      exec i { s with returned := before } = .next { s with returned := before ++ [r] } := by
  obtain hi | ⟨z, o, rfl⟩ := hi
  · exact exec_reading hi s
  · refine ⟨.buffer (encodeBuffer z o s), fun before => ?_⟩
    rw [exec_encode, encodeBuffer_returned]

/-! ### The statements -/

/-- Settles O22, the one column read at each of the three registers. -/
theorem registersWrittenOnlyByListed : Obligations.RegistersWrittenOnlyByListed := fun _ _ _ h =>
  ⟨writer_of_exec_x_ne (c := .red) h, writer_of_exec_x_ne (c := .green) h, writer_of_exec_x_ne (c := .blue) h⟩

/-- Settles O44: neither of the two operations sees the result the other added. -/
theorem readingOperationsCommute : Obligations.ReadingOperationsCommute := by
  intro i j s hi hj
  obtain ⟨ri, hi⟩ := exec_reading_or_encode hi s
  obtain ⟨rj, hj⟩ := exec_reading_or_encode hj s
  have hji := hj (s.returned ++ [ri])
  have hij := hi (s.returned ++ [rj])
  rw [List.append_assoc] at hji hij
  exact ⟨_, _, ri, rj, hi s.returned, hj s.returned, hji, hij⟩

/-- Settles O38. -/
theorem stepRunsDecodedOperation : Obligations.StepRunsDecodedOperation := fun _ _ _ _ _ _ => step_of_inputs_command

/-- Settles O39. -/
theorem idleBlockWaits : Obligations.IdleBlockWaits := fun _ => step_of_inputs_nil

/-- Settles O40. -/
theorem resetInputClearsPixel : Obligations.ResetInputClearsPixel := fun _ _ hin =>
  ⟨step_of_inputs_reset hin, fun _ => exec_createDefault_pixel⟩

/-- Settles O41. -/
theorem resetStateIsBlack : Obligations.ResetStateIsBlack :=
  ⟨rfl, rfl, rfl, rfl, rfl, fun _ _ => exec_createDefault_pixel⟩

/-- Settles O47: nothing is listed in a byte space, pending or returned. -/
theorem resetMeetsInvariant : Obligations.ResetMeetsInvariant where
  zpWf := Memory.wf_nil
  opWf := Memory.wf_nil
  inputsWf := List.forall_mem_nil _
  returnedWf := List.forall_mem_nil _

end Sys2Proof.Machine

/-! Runs and the order of operations: a step does not see the inputs after its own, and an assembled program runs as the
abstract step does (`20_memory.md` R42, `00_scope.md` section 9). -/

namespace Sys2Proof.Machine

/-! ### Inputs still to come -/

section
variable {s t : State}

/-- The loops of ENCODE read nothing of what the caller issues later. -/
theorem encodeBuffer_inputs (zero one : Descriptor) (s : State) (later : List Input) :
    encodeBuffer zero one { s with inputs := later } = encodeBuffer zero one s := rfl

/-- An operation does the same whatever the caller issues after it. -/
theorem exec_ignores_inputs {i : Instr} (h : exec i s = .next t) (later : List Input) :
    exec i { s with inputs := later } = .next { t with inputs := later } := by
  cases i with
  | encode zero one =>
    cases h
    rw [exec_encode, encodeBuffer_inputs]
    rfl
  | createDefault | create | createFromPacked | toPacked | getRed | getGreen | getBlue | setRed | setGreen
  | setBlue =>
    cases h
    rfl

/-- A step that takes an input does the same whatever stands after the inputs it finds. -/
theorem step_append_inputs (h : step s = .next t) (hne : s.inputs ≠ []) (later : List Input) :
    step { s with inputs := s.inputs ++ later } = .next { t with inputs := t.inputs ++ later } := by
  obtain ⟨hin, -⟩ | ⟨rest, hin, rfl⟩ | ⟨w, zp, op, rest, i, hin, hd, hx⟩ := step_cases h
  · exact absurd hin hne
  · exact step_of_inputs_reset (congrArg (· ++ later) hin)
  · rw [exec_inputs hx, State.accept_inputs]
    exact (step_of_inputs_command (congrArg (· ++ later) hin) hd).trans (exec_ignores_inputs hx (rest ++ later))

/-- A run that reaches a state had a first step. -/
theorem run_succ_next {k : Nat} (h : core.run (k + 1) s = .next t) : ∃ u, step s = .next u ∧ core.run k u = .next t := by
  cases hs : step s with
  | next u => exact ⟨u, rfl, (run_succ_of_next hs k).symm.trans h⟩
  | fault why => exact absurd hs (step_ne_fault s why)
  | refused why => cases (run_succ_of_refused hs k).symm.trans h

/-- A run over all of a state's inputs takes them all, and does the same when others stand after them. -/
theorem run_append_inputs {k : Nat} (hk : s.inputs.length = k) (h : core.run k s = .next t) (later : List Input) :
    t.inputs = [] ∧ core.run k { s with inputs := s.inputs ++ later } = .next { t with inputs := later } := by
  induction k generalizing s with
  | zero =>
    have hin : s.inputs = [] := List.length_eq_zero_iff.1 hk
    obtain rfl : s = t := Host.Outcome.next.inj h
    rw [hin]
    exact ⟨rfl, rfl⟩
  | succ k ih =>
    obtain ⟨u, hs, hrun⟩ := run_succ_next h
    have hlen : u.inputs.length = k := by rw [step_inputs hs, List.length_drop, hk, Nat.add_sub_cancel]
    have hne : s.inputs ≠ [] := List.ne_nil_of_length_eq_add_one hk
    obtain ⟨hin, hlater⟩ := ih hlen hrun
    exact ⟨hin, (run_succ_of_next (step_append_inputs hs hne later) k).trans hlater⟩

end

/-! ### The machine's operations and the abstract step -/

section
variable (v : Word) (r g b : Byte)

theorem packedRed_eq_ofNat : packedRed v = BitVec.ofNat 8 (v.toNat / 65536) :=
  BitVec.eq_of_toNat_eq (by rw [packedRed_toNat, BitVec.toNat_ofNat])

theorem packedGreen_eq_ofNat : packedGreen v = BitVec.ofNat 8 (v.toNat / 256) :=
  BitVec.eq_of_toNat_eq (by rw [packedGreen_toNat, BitVec.toNat_ofNat])

theorem packedBlue_eq_ofNat : packedBlue v = BitVec.ofNat 8 v.toNat :=
  BitVec.eq_of_toNat_eq (by rw [packedBlue_toNat, BitVec.toNat_ofNat])

theorem zext32_eq_ofNat : zext32 b = BitVec.ofNat 32 b.toNat :=
  (BitVec.ofNat_toNat 32 b).symm

theorem compose_eq_ofNat : compose r g b = BitVec.ofNat 32 (r.toNat * 65536 + g.toNat * 256 + b.toNat) := by
  rw [← compose_toNat, BitVec.ofNat_toNat, BitVec.setWidth_eq]

end

/-- Each operation does on the machine what the abstract step says, when the byte spaces are those of its patterns. -/
theorem exec_refines_apply (o : Operation) {s : State} (hzp : s.zp = Pattern.space o.patterns.1)
    (hop : s.op = Pattern.space o.patterns.2) :
    ∃ t, exec o.instr s = .next t ∧ t.pixel = (o.apply s.pixel).1 ∧
      t.returned = s.returned ++ [(o.apply s.pixel).2] := by
  cases o with
  | createDefault => exact ⟨_, exec_createDefault s, rfl, rfl⟩
  | create red green blue =>
    refine ⟨_, exec_create red green blue s, ?_, rfl⟩
    simp only [State.pixel, trunc8_eq_ofNat, Operation.apply]
  | createFromPacked v =>
    refine ⟨_, exec_createFromPacked v s, ?_, rfl⟩
    simp only [State.pixel, packedRed_eq_ofNat, packedGreen_eq_ofNat, packedBlue_eq_ofNat, Operation.apply]
  | toPacked => exact ⟨_, exec_toPacked s, rfl, by rw [compose_eq_ofNat]; rfl⟩
  | getRed => exact ⟨_, exec_getRed s, rfl, by rw [zext32_eq_ofNat]; rfl⟩
  | getGreen => exact ⟨_, exec_getGreen s, rfl, by rw [zext32_eq_ofNat]; rfl⟩
  | getBlue => exact ⟨_, exec_getBlue s, rfl, by rw [zext32_eq_ofNat]; rfl⟩
  | setRed v => exact ⟨_, exec_setRed v s, by rw [trunc8_eq_ofNat]; rfl, rfl⟩
  | setGreen v => exact ⟨_, exec_setGreen v s, by rw [trunc8_eq_ofNat]; rfl, rfl⟩
  | setBlue v => exact ⟨_, exec_setBlue v s, by rw [trunc8_eq_ofNat]; rfl, rfl⟩
  | encode z o =>
    refine ⟨_, exec_encode_transform _ _ s, rfl, ?_⟩
    rw [hzp, hop]
    simp only [Operation.patterns, patternOf_descriptor_space]
    rfl

/-- A step on an assembled operation takes it and does what the abstract step says. -/
theorem step_refines_apply {o : Operation} (hwf : WellFormed o.instr) {s : State} {rest : List Input}
    (hin : s.inputs = o.assemble :: rest) :
    ∃ t, step s = .next t ∧ t.inputs = rest ∧ t.pixel = (o.apply s.pixel).1 ∧
      t.returned = s.returned ++ [(o.apply s.pixel).2] := by
  have hstep := step_of_inputs_command hin (decode_encode hwf)
  obtain ⟨t, hx, hpixel, hret⟩ := exec_refines_apply o (s := s.accept _ _ rest) rfl rfl
  exact ⟨t, hstep.trans hx, exec_inputs hx, hpixel, hret⟩

/-- A run over an assembled program ends in the Pixel and returns the results of the abstract run, in order. -/
theorem run_refines_applyAll {ops : List Operation} (hwf : ∀ o ∈ ops, WellFormed o.instr) {s : State}
    (hin : s.inputs = ops.map Operation.assemble) :
    ∃ t, core.run ops.length s = .next t ∧ t.pixel = (Operation.applyAll s.pixel ops).1 ∧
      t.returned = s.returned ++ (Operation.applyAll s.pixel ops).2 ∧ t.inputs = [] := by
  induction ops generalizing s with
  | nil => exact ⟨s, run_zero s, rfl, (List.append_nil _).symm, hin⟩
  | cons o ops ih =>
    obtain ⟨ho, hops⟩ := List.forall_mem_cons.1 hwf
    obtain ⟨u, hstep, hrest, hpixel, hret⟩ := step_refines_apply ho hin
    obtain ⟨t, hrun, htpixel, htret, htin⟩ := ih hops hrest
    rw [hpixel] at htpixel htret
    refine ⟨t, (run_succ_of_next hstep ops.length).trans hrun, htpixel, ?_, htin⟩
    rw [htret, hret, List.append_assoc]
    rfl

/-! ### The statements -/

/-- Settles O43, by induction on the inputs (`run_append_inputs`). -/
theorem inputsTakeEffectInIssueOrder : Obligations.InputsTakeEffectInIssueOrder := fun first later s _ h =>
  run_append_inputs (s := { s with inputs := first }) rfl h later

/-- Settles O49, by induction on the program (`run_refines_applyAll`). -/
theorem programsRefineAbstractStep : Obligations.ProgramsRefineAbstractStep := fun ops s hwf =>
  run_refines_applyAll (s := { s with inputs := ops.map Operation.assemble }) hwf rfl

end Sys2Proof.Machine
